-- ==== Sys2Proof/Word.lean ====
section
/-! DEFINITION. The port widths of the block (10_state.md R24, R25; 30_encoding.md R50) and the two small sets of names
a command selects from: the operation (R51) and the payload length (R52). -/

namespace Sys2Proof

/-- CMD[3:0] (R24). -/
abbrev Cmd := BitVec 4

/-- A length on DLEN[5:0] or OLEN[5:0] (R24, R25). -/
abbrev LenWord := BitVec 6

/-- The 39-bit buses DIN and DOUT (R24, R25). -/
abbrev Bus := BitVec 39

/-- SYN[5:0] (R25). -/
abbrev Syn := BitVec 6

/-- ERR[2:0] (R25). -/
abbrev ErrCode := BitVec 3

/-- CLS[1:0] (R25). -/
abbrev ClsCode := BitVec 2

/-- The request as one word, REQ[48:0] = CMD, DLEN, DIN (R50). -/
abbrev Req := BitVec 49

/-- The operations of the OP field (R51). -/
inductive Op where
  | enc
  | dec
  deriving DecidableEq, Repr

/-- The supported payload lengths m, 8, 16 and 32 (R52, R70). -/
inductive PayloadLen where
  | len8
  | len16
  | len32
  deriving DecidableEq, Repr

end Sys2Proof
end

