-- ==== Sys2Proof/Machine/Layout.lean ====
section
/-! DEFINITION. The parity layout shared by encoder and decoder (40_parity_layout.md): constant functions of the
payload length. -/

namespace Sys2Proof.Machine

/-- The one failure of the layout functions (R70), the internal name of InvalidLength (60_exceptions.md R151). -/
inductive LayoutError where
  | unsupportedLength
  deriving DecidableEq, Repr

/-- m, the number of payload bits (R52). -/
def payloadBits : PayloadLen → Nat
  | .len8 => 8
  | .len16 => 16
  | .len32 => 32

/-- The supported length with a given number of bits; any other fails (R70). -/
def lenOfBits (m : Nat) : Except LayoutError PayloadLen :=
  match m with
  | 8 => .ok .len8
  | 16 => .ok .len16
  | 32 => .ok .len32
  | _ => .error .unsupportedLength

/-- parityCount(m), the fixed table (R70). -/
def parityCount : PayloadLen → Nat
  | .len8 => 4
  | .len16 => 5
  | .len32 => 6

/-- parityCount as the source calls it, on a number, failing on every length that is not supported (R70). -/
def parityCountOf (m : Nat) : Except LayoutError Nat := (lenOfBits m).map parityCount

/-- isPowerOfTwo(x) (R71). -/
def isPowerOfTwo (x : Nat) : Bool := decide (0 < x) && (x &&& (x - 1)) == 0

/-- dataTotal(m) = m + parityCount(m) (R72). -/
def dataTotal (m : PayloadLen) : Nat := payloadBits m + parityCount m

/-- The codeword length n(m) = dataTotal(m) + 1 (R72). -/
def codeLen (m : PayloadLen) : Nat := dataTotal m + 1

/-- The positions 1, 2, ..., k (R7: codewords are indexed from 1). -/
def positionsUpTo (k : Nat) : List Nat := List.range' 1 k

/-- The parity positions P(m), the powers of two 2^0 to 2^(parityCount-1) (R73). -/
def parityPositions (m : PayloadLen) : List Nat := (List.range (parityCount m)).map (fun k => 2 ^ k)

/-- The overall-parity position, the last of the codeword (R73). -/
def overallPosition (m : PayloadLen) : Nat := codeLen m

/-- What a position of a codeword holds (R74). -/
inductive PositionClass where
  | parity
  | overallParity
  | data
  deriving DecidableEq, Repr

/-- The class of a position of a codeword of payload length m (R74). -/
def positionClass (m : PayloadLen) (i : Nat) : PositionClass :=
  if isPowerOfTwo i ∧ i ≤ dataTotal m then .parity
  else if i = codeLen m then .overallParity
  else .data

/-- coveredPositions(p, dataTotal): the positions that share a bit with p, in increasing order (R75). -/
def coveredPositions (p total : Nat) : List Nat := (positionsUpTo total).filter (fun j => (j &&& p) != 0)

/-- The data positions in increasing order (R76). -/
def dataPositions (m : PayloadLen) : List Nat := (positionsUpTo (dataTotal m)).filter (fun i => !isPowerOfTwo i)

/-- dataPos_m(k), the k-th data position; 0, which is no position, for k ≥ m (R76). -/
def dataPos (m : PayloadLen) (k : Nat) : Nat := (dataPositions m).getD k 0

end Sys2Proof.Machine
end

