-- ==== Sys2Proof/Machine/State.lean ====
section
/-! DEFINITION. The state of the block. The spec gives it no architectural state (10_state.md R20); what a state holds
is the ports: the inputs the caller drives (R24) and the outputs of the last completed evaluation of them (R25). -/

namespace Sys2Proof.Machine

/-- The error kinds an evaluation can report on ERR (60_exceptions.md R150). -/
inductive ErrorKind where
  | invalidLength
  | invalidCharacter
  | lengthMismatch
  | illegalOp
  deriving DecidableEq, Repr

/-- The verdict of the classifier (43_classify_correct.md R130); the position is the syndrome value. -/
inductive Classification where
  | none
  | singleCorrectable (position : Nat)
  | doubleUncorrectable
  deriving DecidableEq, Repr

/-- The output ports (10_state.md R25). -/
structure Outputs where
  err : ErrCode
  olen : LenWord
  dout : Bus
  syn : Syn
  opc : Bool
  cls : ClsCode
  cvalid : Bool
  deriving DecidableEq, Repr

/-- The ports of the block. `out` is the observation of a completed evaluation of the inputs held, and `none` while
there is none: at power-up and after an input was driven anew the outputs are unspecified and "a model has no
observation of them" (70_reset_and_hazards.md R172, R174; log entry 2). -/
structure State where
  cmd : Cmd
  dlen : LenWord
  din : Bus
  out : Option Outputs
  deriving DecidableEq, Repr

/-- The block has no fault: "An error does not trap", it is the whole result of its evaluation (60_exceptions.md R155).
So this type has no constructor (log entry 12). -/
inductive Fault where
  deriving DecidableEq, Repr

/-- Why a step has no meaning. No arm of the model refuses. -/
inductive Refusal where
  /-- An instruction whose meaning is not written yet, by its mnemonic. Raised by nobody: every instruction has its
  meaning. Safe. -/
  | notModelled (mnemonic : String)
  deriving DecidableEq, Repr

/-- Power-up. There is nothing to reset (70_reset_and_hazards.md R170) and nothing to observe yet (R172). The input
ports are the caller's; the spec gives them no power-up value, and 0 is the model's DESIGN CHOICE, unsafe (log entry 1). -/
def State.reset : State where
  cmd := 0#4
  dlen := 0#6
  din := 0#39
  out := none

end Sys2Proof.Machine
end

