-- ==== Sys2Proof/Machine/Operands.lean ====
section
/-! DEFINITION. Bit sequences, their places on the buses (00_scope.md R7; 30_encoding.md R55, R56, R58), and the length
checks of the operands (60_exceptions.md R152). -/

namespace Sys2Proof.Machine

/-- A bit sequence, its first element first (00_scope.md R7). A payload is indexed from 0, a codeword from 1. -/
abbrev BitSeq := List Bool

/-- c⟨i⟩, the bit at position i of a codeword, counted from 1 (R7); 0 outside the sequence, where no rule looks. -/
def bitAt (c : BitSeq) : Nat → Bool
  | 0 => false
  | k + 1 => c.getD k false

/-- c with the bit at position i replaced. -/
def setBitAt (c : BitSeq) (i : Nat) (b : Bool) : BitSeq :=
  match i with
  | 0 => c
  | k + 1 => c.set k b

/-- c with the bit at position i inverted. -/
def flipAt (c : BitSeq) (i : Nat) : BitSeq := setBitAt c i (!bitAt c i)

/-- XOR of c⟨j⟩ over the positions j of a list; over none it is 0 (00_scope.md R8). -/
def xorAt (c : BitSeq) (positions : List Nat) : Bool := positions.foldr (fun j acc => bitAt c j ^^ acc) false

/-- The payload on DIN: p[i] = DIN[m-1-i] for i = 0..m-1 (R55). Bits of DIN above are not read (R57). -/
def payloadOfBus (m : PayloadLen) (din : Bus) : BitSeq :=
  (List.range (payloadBits m)).map (fun i => din.getLsbD (payloadBits m - 1 - i))

/-- The codeword on DIN: c⟨i⟩ = DIN[i-1] for i = 1..n (R56). Bits of DIN above are not read (R57). -/
def codewordOfBus (m : PayloadLen) (din : Bus) : BitSeq :=
  (List.range (codeLen m)).map (fun k => din.getLsbD k)

/-- The number Σ c⟨i⟩·2^(i-1) (41_encoder.md R90). -/
def seqValue : BitSeq → Nat
  | [] => 0
  | b :: c => b.toNat + 2 * seqValue c

/-- A codeword on DOUT: DOUT[i-1] = c⟨i⟩, and the bits above its length are 0 (R56, R58). -/
def busOfCodeword (c : BitSeq) : Bus := BitVec.ofNat 39 (seqValue c)

/-- ENC's checks of the stated length, 3a before 3b (60_exceptions.md R152). -/
def checkEncLen (m : PayloadLen) (dlen : Nat) : Option ErrorKind :=
  if dlen ≠ 8 ∧ dlen ≠ 16 ∧ dlen ≠ 32 then some .invalidLength
  else if dlen ≠ payloadBits m then some .invalidCharacter
  else none

/-- DEC's check of the stated length, 4a (60_exceptions.md R152). -/
def checkDecLen (m : PayloadLen) (dlen : Nat) : Option ErrorKind :=
  if dlen ≠ codeLen m then some .lengthMismatch else none

end Sys2Proof.Machine
end

