-- ==== Sys2Proof/Syntax.lean ====
section
/-! DEFINITION. The instructions: one constructor per row of spec/opcode_table.json. Each carries the two operands of a
request (30_encoding.md R50, R60): the length the caller states on DLEN, a count, and the bits it presents on DIN. -/

namespace Sys2Proof

/-- The six operations of the command map (R53). -/
inductive Instr where
  /-- `ENC.8`, CMD = 0000 (41_encoder.md R90). -/
  | enc8 (dlen : Nat) (din : Bus)
  /-- `ENC.16`, CMD = 0001 (R90). -/
  | enc16 (dlen : Nat) (din : Bus)
  /-- `ENC.32`, CMD = 0010 (R90). -/
  | enc32 (dlen : Nat) (din : Bus)
  /-- `DEC.8`, CMD = 0100 (43_classify_correct.md R135). -/
  | dec8 (dlen : Nat) (din : Bus)
  /-- `DEC.16`, CMD = 0101 (R135). -/
  | dec16 (dlen : Nat) (din : Bus)
  /-- `DEC.32`, CMD = 0110 (R135). -/
  | dec32 (dlen : Nat) (din : Bus)
  deriving DecidableEq, Repr

/-- The stated length of the operand (R54). -/
def Instr.dlen : Instr → Nat
  | .enc8 d _ | .enc16 d _ | .enc32 d _ | .dec8 d _ | .dec16 d _ | .dec32 d _ => d

end Sys2Proof
end

