-- ==== Sys2Proof/WellFormed.lean ====
section
/-! DEFINITION. Which instructions can be presented on the ports. The one thing the types leave open is the stated
length: "A source sequence of length 64 or more cannot be presented, since DLEN ≤ 63" (30_encoding.md R54). A length
that is presentable but wrong for the operation is well-formed: it raises the error of 60_exceptions.md R152. -/

namespace Sys2Proof

/-- An instruction whose stated length fits DLEN[5:0] (R54; log entry 6). -/
def Instr.wellFormed (i : Instr) : Bool := decide (i.dlen < 64)

end Sys2Proof
end

