-- ==== Sys2Proof/Decode.lean ====
section
/-! DEFINITION. The request word REQ[48:0] = CMD, DLEN, DIN (30_encoding.md R50), the decoder, total on every request
and rejecting the reserved commands by name, and the encoder written from the same tables (R51, R52, R53). -/

namespace Sys2Proof

/-- The request word of the three input ports (R50). -/
def reqOfPorts (cmd : Cmd) (dlen : LenWord) (din : Bus) : Req := cmd ++ dlen ++ din

/-- CMD[3:0] = REQ[48:45] (R50). -/
def Req.cmd (r : Req) : Cmd := r.extractLsb' 45 4

/-- OP = CMD[3:2] = REQ[48:47] (R50). -/
def Req.op (r : Req) : BitVec 2 := r.extractLsb' 47 2

/-- LEN = CMD[1:0] = REQ[46:45] (R50). -/
def Req.len (r : Req) : BitVec 2 := r.extractLsb' 45 2

/-- DLEN[5:0] = REQ[44:39] (R50). -/
def Req.dlen (r : Req) : LenWord := r.extractLsb' 39 6

/-- DIN[38:0] = REQ[38:0] (R50). -/
def Req.din (r : Req) : Bus := r.extractLsb' 0 39

/-- The instruction of an operation, a payload length and the operands (R53, R63). -/
def Instr.ofOp (op : Op) (m : PayloadLen) (dlen : Nat) (din : Bus) : Instr :=
  match op, m with
  | .enc, .len8 => .enc8 dlen din
  | .enc, .len16 => .enc16 dlen din
  | .enc, .len32 => .enc32 dlen din
  | .dec, .len8 => .dec8 dlen din
  | .dec, .len16 => .dec16 dlen din
  | .dec, .len32 => .dec32 dlen din

/-- The operation an instruction names (R51). -/
def Instr.op : Instr → Op
  | .enc8 _ _ | .enc16 _ _ | .enc32 _ _ => .enc
  | .dec8 _ _ | .dec16 _ _ | .dec32 _ _ => .dec

/-- The payload length an instruction names (R52). -/
def Instr.len : Instr → PayloadLen
  | .enc8 _ _ | .dec8 _ _ => .len8
  | .enc16 _ _ | .dec16 _ _ => .len16
  | .enc32 _ _ | .dec32 _ _ => .len32

/-- The bits presented on DIN (R55, R56). -/
def Instr.din : Instr → Bus
  | .enc8 _ x | .enc16 _ x | .enc32 _ x | .dec8 _ x | .dec16 _ x | .dec32 _ x => x

/-- Why a command names no operation (R53, R62). -/
inductive Reject where
  /-- OP is 10 or 11: no such operation, whatever LEN is (R51). -/
  | illegalOp
  /-- OP names an operation and LEN is 11: no such payload length (R52). -/
  | unsupportedLen
  deriving DecidableEq, Repr

/-- The OP field (R51): 10 and 11 are reserved. -/
def decodeOp (b : BitVec 2) : Option Op :=
  match b.toNat with
  | 0 => some .enc
  | 1 => some .dec
  | _ => none

/-- The LEN field (R52): 11 is unsupported. -/
def decodeLen (b : BitVec 2) : Option PayloadLen :=
  match b.toNat with
  | 0 => some .len8
  | 1 => some .len16
  | 2 => some .len32
  | _ => none

/-- The decoder: CMD alone decides the row, DLEN and DIN are the operands (R53, R60). OP is looked at before LEN, so a
reserved operation is IllegalOp whatever LEN is. -/
def decode (r : Req) : Except Reject Instr :=
  match decodeOp r.op with
  | none => .error .illegalOp
  | some op =>
    match decodeLen r.len with
    | none => .error .unsupportedLen
    | some m => .ok (Instr.ofOp op m r.dlen.toNat r.din)

/-- The OP field of an operation (R51). -/
def encodeOp : Op → BitVec 2
  | .enc => 0b00#2
  | .dec => 0b01#2

/-- The LEN field of a payload length (R52). -/
def encodeLen : PayloadLen → BitVec 2
  | .len8 => 0b00#2
  | .len16 => 0b01#2
  | .len32 => 0b10#2

/-- CMD of an instruction (R53). -/
def encodeCmd (i : Instr) : Cmd := encodeOp i.op ++ encodeLen i.len

/-- The encoder: the request word of an instruction (R50, R53). -/
def encode (i : Instr) : Req := reqOfPorts (encodeCmd i) (BitVec.ofNat 6 i.dlen) i.din

/-- The request word of `nbits` bits given as a number, numbered as spec/opcode_table.json numbers them: bit 0 is
DIN[0] and bit 48 is CMD[3]; the bits from `nbits` on are 0, and a bit above 48 is on no port (log entry 7). -/
def reqOfTableWord (nbits w : Nat) : Req := BitVec.ofNat 49 (w % 2 ^ nbits)

/-- The instruction the decoder reads from a table word; none where it rejects the command, and none for a number with
a bit above REQ[48] (log entry 7). -/
def decodeTableWord (nbits w : Nat) : Option Instr :=
  if w % 2 ^ nbits < 2 ^ 49 then (decode (reqOfTableWord nbits w)).toOption else none

end Sys2Proof
end

