-- ==== Sys2Proof/Machine/Flags.lean ====
section
/-! DEFINITION. The status outputs (10_state.md R27): the error codes, the classification, its code, and CVALID. -/

namespace Sys2Proof.Machine

/-- ERR when every check passed (60_exceptions.md R150). -/
def errNone : ErrCode := 0#3

/-- ERR of an error kind (60_exceptions.md R150). -/
def errorCode : ErrorKind → ErrCode
  | .invalidLength => 1#3
  | .invalidCharacter => 2#3
  | .lengthMismatch => 3#3
  | .illegalOp => 4#3

/-- The exact 2×2 decision table over s = 0 and opc (43_classify_correct.md R130). The row s = 0, opc = 1 is
DoubleUncorrectable (90_conflicts.md C1). -/
def classify (s : Nat) (opc : Bool) : Classification :=
  match decide (s = 0), opc with
  | true, false => .none
  | true, true => .doubleUncorrectable
  | false, true => .singleCorrectable s
  | false, false => .doubleUncorrectable

/-- CLS of a classification (R131). -/
def clsCode : Classification → ClsCode
  | .none => 0b00#2
  | .singleCorrectable _ => 0b01#2
  | .doubleUncorrectable => 0b10#2

/-- CLS = 11, no classification: driven by ENC and on every error (R131). -/
def clsNotApplicable : ClsCode := 0b11#2

/-- CVALID = 1 iff the classification is SingleCorrectable (R133), whether or not a bit could be flipped. -/
def cvalidOf : Classification → Bool
  | .singleCorrectable _ => true
  | .none | .doubleUncorrectable => false

end Sys2Proof.Machine
end

