-- ==== Sys2Proof/Machine/Ops.lean ====
section
/-! DEFINITION. The operations on the ports: reading the request, driving the inputs, completing an evaluation, and
raising an error, which is this block's whole exception mechanism (60_exceptions.md R153, R155). There is no return from
an exception and no memory operation: the block has neither (R155; 20_memory.md R40). -/

namespace Sys2Proof.Machine

/-- The request the inputs present (30_encoding.md R50). -/
def State.request (s : State) : Req := reqOfPorts s.cmd s.dlen s.din

/-- The caller drives the inputs anew: the outputs are unspecified until an evaluation of them completes
(70_reset_and_hazards.md R172, R174). -/
def State.present (s : State) (r : Req) : State :=
  { s with cmd := Req.cmd r, dlen := Req.dlen r, din := Req.din r, out := none }

/-- An evaluation completes and drives all output ports as one result (20_memory.md R44); the inputs are held. -/
def complete (o : Outputs) (s : State) : Host.Outcome State Fault Refusal := .next { s with out := some o }

/-- The outputs on an error: its code, and no partial result (60_exceptions.md R153). -/
def errorOutputs (e : ErrorKind) : Outputs where
  err := errorCode e
  olen := 0#6
  dout := 0#39
  syn := 0#6
  opc := false
  cls := clsNotApplicable
  cvalid := false

/-- `raise e` (00_scope.md R9): the evaluation ends with the error outputs. Nothing is saved and control goes nowhere
(60_exceptions.md R155). -/
def raiseError (e : ErrorKind) (s : State) : Host.Outcome State Fault Refusal := complete (errorOutputs e) s

/-- The error kind reported for a command that names no operation (60_exceptions.md R152, checks 1 and 2). -/
def rejectError : Reject → ErrorKind
  | .illegalOp => .illegalOp
  | .unsupportedLen => .invalidLength

/-- The evaluation of a reserved command: an error result, never a no-op (30_encoding.md R62; log entry 5). -/
def execReserved (r : Reject) (s : State) : Host.Outcome State Fault Refusal := raiseError (rejectError r) s

end Sys2Proof.Machine
end

