-- ==== Sys2Proof/Machine/Decoder.lean ====
section
/-! DEFINITION. The decoder: the syndrome calculator (42_syndrome.md R110 to R113), the corrector
(43_classify_correct.md R132), and the meanings of DEC.8, DEC.16 and DEC.32 (R135). The classifier is in Flags.lean. -/

namespace Sys2Proof.Machine

/-- chk_k, the XOR of the received bits that parity position 2^k covers, itself among them (R111). -/
def checkBit (m : PayloadLen) (c : BitSeq) (k : Nat) : Bool := xorAt c (coveredPositions (2 ^ k) (dataTotal m))

/-- The syndrome bits: each check is prepended as it is computed, k = 0 first, so the most significant stands first
(R111). -/
def syndromeBits (m : PayloadLen) (c : BitSeq) : BitSeq :=
  (List.range (parityCount m)).foldl (fun sbits k => checkBit m c k :: sbits) []

/-- A bit sequence read as a binary integer, first element most significant (R112). -/
def binaryValue (sbits : BitSeq) : Nat := sbits.foldl (fun v b => 2 * v + b.toNat) 0

/-- The syndrome value s (R112). -/
def syndromeValue (m : PayloadLen) (c : BitSeq) : Nat := binaryValue (syndromeBits m c)

/-- The overall parity check, the XOR of all n received bits (R113). -/
def overallParityCheck (m : PayloadLen) (c : BitSeq) : Bool := xorAt c (positionsUpTo (codeLen m))

/-- The corrected word: the bit at position s is flipped when the class is SingleCorrectable(s) and s is a position of
the codeword; in every other case, s > n among them, nothing is flipped (R132, R134). -/
def correctWord (m : PayloadLen) (c : BitSeq) : Classification → BitSeq
  | .singleCorrectable s => if 1 ≤ s ∧ s ≤ codeLen m then flipAt c s else c
  | .none | .doubleUncorrectable => c

/-- The classification of a received word (R130). -/
def classifyWord (m : PayloadLen) (c : BitSeq) : Classification :=
  classify (syndromeValue m c) (overallParityCheck m c)

/-- DEC's outputs when its checks passed (R135). -/
def decOutputs (m : PayloadLen) (din : Bus) : Outputs :=
  let c := codewordOfBus m din
  let cls := classifyWord m c
  { err := errNone
    olen := BitVec.ofNat 6 (codeLen m)
    dout := busOfCodeword (correctWord m c cls)
    syn := BitVec.ofNat 6 (syndromeValue m c)
    opc := overallParityCheck m c
    cls := clsCode cls
    cvalid := cvalidOf cls }

/-- DEC: the length check, then syndrome, classification and correction (R135). -/
def execDec (m : PayloadLen) (dlen : Nat) (din : Bus) (s : State) : Host.Outcome State Fault Refusal :=
  match checkDecLen m dlen with
  | some e => raiseError e s
  | none => complete (decOutputs m din) s

/-- `DEC.8` (R135): a received word of 13 bits. -/
def execDec8 (dlen : Nat) (din : Bus) (s : State) : Host.Outcome State Fault Refusal := execDec .len8 dlen din s

/-- `DEC.16` (R135): a received word of 22 bits. -/
def execDec16 (dlen : Nat) (din : Bus) (s : State) : Host.Outcome State Fault Refusal := execDec .len16 dlen din s

/-- `DEC.32` (R135): a received word of 39 bits. -/
def execDec32 (dlen : Nat) (din : Bus) (s : State) : Host.Outcome State Fault Refusal := execDec .len32 dlen din s

end Sys2Proof.Machine
end

