-- ==== Sys2Proof/Machine/Encoder.lean ====
section
/-! DEFINITION. The encoder: the algorithm of 41_encoder.md R91 to R95 step by step, and the meanings of ENC.8, ENC.16
and ENC.32 (R90, R96). -/

namespace Sys2Proof.Machine

/-- Step 2, placement (R92): walking the positions in increasing order, each one that is no power of two receives the
next unused bit of r, and each power of two holds 0. -/
def placeBits : List Nat → BitSeq → BitSeq
  | [], _ => []
  | i :: is, r =>
    if isPowerOfTwo i then false :: placeBits is r
    else
      match r with
      | [] => false :: placeBits is []
      | b :: r' => b :: placeBits is r'

/-- Steps 1 and 2: the working array a⟨1..dataTotal⟩ of the REVERSED payload, parity positions still 0 (R91, R92). -/
def dataArray (m : PayloadLen) (p : BitSeq) : BitSeq := placeBits (positionsUpTo (dataTotal m)) p.reverse

/-- Step 3 for one k: a⟨2^k⟩ receives the XOR over its covered set, taken while it is 0 itself (R93; 90_conflicts.md C6). -/
def setParityBit (m : PayloadLen) (a : BitSeq) (k : Nat) : BitSeq :=
  setBitAt a (2 ^ k) (xorAt a (coveredPositions (2 ^ k) (dataTotal m)))

/-- Step 3: the Hamming parity bits, k = 0 to parityCount - 1 (R93). -/
def parityArray (m : PayloadLen) (a : BitSeq) : BitSeq := (List.range (parityCount m)).foldl (setParityBit m) a

/-- Step 4: the overall-parity bit, the XOR of all dataTotal preceding bits, appended as position n (R94). -/
def appendOverall (m : PayloadLen) (a : BitSeq) : BitSeq := a ++ [xorAt a (positionsUpTo (dataTotal m))]

/-- encode(payload, m): the codeword of a payload (R90, R95). -/
def encodePayload (m : PayloadLen) (p : BitSeq) : BitSeq := appendOverall m (parityArray m (dataArray m p))

/-- ENC's outputs on success (R96). -/
def encOutputs (m : PayloadLen) (din : Bus) : Outputs where
  err := errNone
  olen := BitVec.ofNat 6 (codeLen m)
  dout := busOfCodeword (encodePayload m (payloadOfBus m din))
  syn := 0#6
  opc := false
  cls := clsNotApplicable
  cvalid := false

/-- ENC: the length checks, then the codeword (R90). -/
def execEnc (m : PayloadLen) (dlen : Nat) (din : Bus) (s : State) : Host.Outcome State Fault Refusal :=
  match checkEncLen m dlen with
  | some e => raiseError e s
  | none => complete (encOutputs m din) s

/-- `ENC.8` (R90): an 8-bit payload to a 13-bit codeword. -/
def execEnc8 (dlen : Nat) (din : Bus) (s : State) : Host.Outcome State Fault Refusal := execEnc .len8 dlen din s

/-- `ENC.16` (R90): a 16-bit payload to a 22-bit codeword. -/
def execEnc16 (dlen : Nat) (din : Bus) (s : State) : Host.Outcome State Fault Refusal := execEnc .len16 dlen din s

/-- `ENC.32` (R90): a 32-bit payload to a 39-bit codeword. -/
def execEnc32 (dlen : Nat) (din : Bus) (s : State) : Host.Outcome State Fault Refusal := execEnc .len32 dlen din s

end Sys2Proof.Machine
end

