-- ==== Sys2Proof/Machine/Dispatch.lean ====
section
/-! DEFINITION. One arm per instruction of spec/opcode_table.json, in the table's order. -/

namespace Sys2Proof.Machine

def exec (i : Instr) (s : State) : Host.Outcome State Fault Refusal :=
  match i with
  | .enc8 dlen din => Sys2Proof.Machine.execEnc8 dlen din s
  | .enc16 dlen din => Sys2Proof.Machine.execEnc16 dlen din s
  | .enc32 dlen din => Sys2Proof.Machine.execEnc32 dlen din s
  | .dec8 dlen din => Sys2Proof.Machine.execDec8 dlen din s
  | .dec16 dlen din => Sys2Proof.Machine.execDec16 dlen din s
  | .dec32 dlen din => Sys2Proof.Machine.execDec32 dlen din s

end Sys2Proof.Machine
end

