-- ==== Sys2Proof/Machine/Step.lean ====
section
/-! DEFINITION. One step: one completed evaluation of the request on the inputs (00_scope.md R10; 20_memory.md R44). -/

namespace Sys2Proof.Machine

/-- The block evaluates the request its inputs present: the operation CMD names, or the error of a reserved command
(30_encoding.md R53). The inputs stay as the caller holds them (70_reset_and_hazards.md R174; log entry 3). -/
def step (s : State) : Host.Outcome State Fault Refusal :=
  match decode s.request with
  | .ok i => exec i s
  | .error r => execReserved r s

/-- The caller drives the table word onto the input ports, which is where a step takes its request from (log entries 4
and 7). -/
def State.withFetchWord (s : State) (nbits w : Nat) : State := s.present (reqOfTableWord nbits w)

end Sys2Proof.Machine
end

