-- ==== Sys2Proof/Machine/Caller.lean ====
section
/-! DEFINITION. The caller, which is NOT hardware (10_state.md R28; 00_scope.md R4): the testbench function Corrupt
(00_scope.md R12), payload extraction (41_encoder.md R98), and the lines of a caller program (30_encoding.md R63, R64).
The block never reads anything here (log entry 10). -/

namespace Sys2Proof.Machine

/-- What can go wrong on the caller's side. Raised by the caller's lines, never by the block. -/
inductive CallerError where
  /-- Corrupt was given a position outside 1..n (00_scope.md R12; never on ERR, 60_exceptions.md R151). Safe. -/
  | positionOutOfRange
  /-- A line copies DOUT while there is no completed evaluation to observe (70_reset_and_hazards.md R172). Safe. -/
  | nothingObserved
  /-- A line uses a variable that no line has set. Safe. -/
  | unboundVariable
  /-- The block's step gave no next state. Raised by no line: every step gives one. Safe. -/
  | blockStopped
  deriving DecidableEq, Repr

/-- The bits of the positions in a set, as a bus value: bit i-1 for each i of 1..n in the set (R12). -/
def flipMask (n : Nat) (positions : List Nat) : Bus :=
  busOfCodeword ((List.range n).map (fun k => decide (k + 1 ∈ positions)))

/-- Corrupt(c, S) on an n-bit codeword (R12): the bit at each position of the set S is inverted; an element outside
1..n fails. Only membership in the list counts, so a position is never flipped twice. -/
def corrupt (n : Nat) (c : Bus) (positions : List Nat) : Except CallerError Bus :=
  if positions.all (fun i => decide (1 ≤ i ∧ i ≤ n)) then .ok (c ^^^ flipMask n positions)
  else .error .positionOutOfRange

/-- The payload of a codeword on DOUT, as it would lie on DIN: DIN[k] = DOUT[dataPos_m(k) - 1] (41_encoder.md R98). -/
def extractPayload (m : PayloadLen) (dout : Bus) : Bus :=
  busOfCodeword ((List.range (payloadBits m)).map (fun k => dout.getLsbD (dataPos m k - 1)))

/-- The length an operation requires on DLEN: m for ENC, n for DEC (30_encoding.md R54). -/
def requiredLen (op : Op) (m : PayloadLen) : Nat :=
  match op with
  | .enc => payloadBits m
  | .dec => codeLen m

/-- A value of a line: a constant, or a caller variable, named by a number here (R63, R64). -/
inductive CallerValue where
  | const (v : Bus)
  | var (x : Nat)
  deriving DecidableEq, Repr

/-- A line of a caller program (R63, R64). -/
inductive CallerLine where
  /-- `ENC.<m> value` or `DEC.<m> value`, with or without `dlen=` (R63). -/
  | op (op : Op) (m : PayloadLen) (value : CallerValue) (dlen : Option LenWord)
  /-- `.cmd cmd, dlen, value`: a raw request (R63). -/
  | cmd (cmd : Cmd) (dlen : LenWord) (value : CallerValue)
  /-- `var := DOUT` (R64). -/
  | copyDout (x : Nat)
  /-- `var := value` (R64). -/
  | assign (x : Nat) (value : CallerValue)
  /-- `CORRUPT var, S, n` (R64). -/
  | corrupt (x : Nat) (positions : List Nat) (n : Nat)
  deriving DecidableEq, Repr

/-- The caller's variables, newest first, and the block it drives (10_state.md R28). -/
structure Caller where
  vars : List (Nat × Bus)
  block : State
  deriving DecidableEq, Repr

/-- The value of a variable. -/
def lookupVar : List (Nat × Bus) → Nat → Except CallerError Bus
  | [], _ => .error .unboundVariable
  | (y, v) :: rest, x => if y = x then .ok v else lookupVar rest x

/-- The bus value of a line's operand. -/
def valueOf (vars : List (Nat × Bus)) : CallerValue → Except CallerError Bus
  | .const v => .ok v
  | .var x => lookupVar vars x

/-- DLEN of an operation line: what `dlen=` says, else the length the operation requires (R63). -/
def lineLen (op : Op) (m : PayloadLen) : Option LenWord → LenWord
  | some d => d
  | none => BitVec.ofNat 6 (requiredLen op m)

/-- The request of an operation line (R63). -/
def lineRequest (op : Op) (m : PayloadLen) (v : Bus) (dlen : Option LenWord) : Req :=
  reqOfPorts (encodeOp op ++ encodeLen m) (lineLen op m dlen) v

/-- A request line: the caller presents the request and lets one evaluation complete. -/
def evaluate (r : Req) (c : Caller) : Except CallerError Caller :=
  match step (c.block.present r) with
  | .next t => .ok { c with block := t }
  | .fault _ => .error .blockStopped
  | .refused _ => .error .blockStopped

/-- One line of a caller program (R63, R64). -/
def execLine (l : CallerLine) (c : Caller) : Except CallerError Caller :=
  match l with
  | .op op m value dlen =>
    match valueOf c.vars value with
    | .ok v => evaluate (lineRequest op m v dlen) c
    | .error e => .error e
  | .cmd cmd dlen value =>
    match valueOf c.vars value with
    | .ok v => evaluate (reqOfPorts cmd dlen v) c
    | .error e => .error e
  | .copyDout x =>
    match c.block.out with
    | some o => .ok { c with vars := (x, o.dout) :: c.vars }
    | none => .error .nothingObserved
  | .assign x value =>
    match valueOf c.vars value with
    | .ok v => .ok { c with vars := (x, v) :: c.vars }
    | .error e => .error e
  | .corrupt x positions n =>
    match lookupVar c.vars x with
    | .ok v =>
      match Sys2Proof.Machine.corrupt n v positions with
      | .ok v' => .ok { c with vars := (x, v') :: c.vars }
      | .error e => .error e
    | .error e => .error e

end Sys2Proof.Machine
end

