-- ==== Sys2Proof/Safety.lean ====
section
/-! DEFINITION. What a safe run is, in the terms the statements use: a step always completes (there is no trap and no
stop, 60_exceptions.md R155), the outputs observed are legal port values (30_encoding.md R58, R62; 60_exceptions.md
R153), and the words for what ENC and DEC answer. -/

namespace Sys2Proof.Machine

/-- The step from a state completes: it gives a next state, neither a fault nor a refusal. -/
def State.completes (s : State) : Prop := ∃ t, step s = .next t

/-- The significant bits of SYN at an output length: parityCount of the m with that n (42_syndrome.md R110, R112). -/
def syndromeWidth (olen : LenWord) : Nat :=
  if olen = 13#6 then 4 else if olen = 22#6 then 5 else if olen = 39#6 then 6 else 0

/-- Legal output values: ERR is 0 to 4 (R150: 5, 6 and 7 are never driven); OLEN is 13, 22 or 39 on success; DOUT and
SYN are 0 above their lengths (R58); CVALID marks exactly CLS = 01 (R133); with CLS = 11 the decoder's ports carry
nothing (R96, R153); and an error carries no partial result (R153). -/
structure Outputs.Legal (o : Outputs) : Prop where
  err_range : o.err.toNat ≤ 4
  olen_success : o.err = 0#3 → o.olen = 13#6 ∨ o.olen = 22#6 ∨ o.olen = 39#6
  dout_unused : ∀ i, o.olen.toNat ≤ i → o.dout.getLsbD i = false
  syn_unused : ∀ i, syndromeWidth o.olen ≤ i → o.syn.getLsbD i = false
  cvalid_iff : o.cvalid = true ↔ o.cls = 0b01#2
  no_class : o.cls = 0b11#2 → o.syn = 0#6 ∧ o.opc = false ∧ o.cvalid = false
  error_outputs : o.err ≠ 0#3 →
    o.olen = 0#6 ∧ o.dout = 0#39 ∧ o.syn = 0#6 ∧ o.opc = false ∧ o.cls = 0b11#2 ∧ o.cvalid = false

/-- The invariant of the ports: whatever is observed is legal. -/
def State.PortsLegal (s : State) : Prop := ∀ o, s.out = some o → o.Legal

/-- The observed outputs belong to the inputs held: another evaluation of these inputs changes nothing
(20_memory.md R44, R45). -/
def State.Settled (s : State) : Prop := s.out ≠ none → step s = .next s

/-- ERR as the check list of 60_exceptions.md R152 decides it from CMD and DLEN alone: the first check that fails. -/
def firstFailedCheck (cmd : Cmd) (dlen : LenWord) : ErrCode :=
  if 8 ≤ cmd.toNat then 4#3
  else if cmd.toNat = 3 ∨ cmd.toNat = 7 then 1#3
  else if cmd.toNat < 3 then
    if dlen ≠ 8#6 ∧ dlen ≠ 16#6 ∧ dlen ≠ 32#6 then 1#3
    else if (cmd = 0#4 ∧ dlen ≠ 8#6) ∨ (cmd = 1#4 ∧ dlen ≠ 16#6) ∨ (cmd = 2#4 ∧ dlen ≠ 32#6) then 2#3
    else 0#3
  else if (cmd = 4#4 ∧ dlen ≠ 13#6) ∨ (cmd = 5#4 ∧ dlen ≠ 22#6) ∨ (cmd = 6#4 ∧ dlen ≠ 39#6) then 3#3
  else 0#3

/-- Bit i-1 of a bus for a position i counted from 1 (30_encoding.md R56). -/
def busAt (v : Bus) (i : Nat) : Bool := v.getLsbD (i - 1)

/-- XOR of the bus bits of a list of positions. -/
def xorBus (v : Bus) (positions : List Nat) : Bool := positions.foldr (fun j acc => busAt v j ^^ acc) false

/-- The low n bits of a bus, the rest 0: DIN[n-1:0] zero-extended. -/
def lowBits (n : Nat) (v : Bus) : Bus := BitVec.ofNat 39 (v.toNat % 2 ^ n)

/-- From every state, `ENC.<m>` of the payload on din completes without an error and drives the codeword c, changing
nothing but the outputs. -/
def EncGives (m : PayloadLen) (din c : Bus) : Prop :=
  ∀ s : State, ∃ o, exec (Instr.ofOp .enc m (payloadBits m) din) s = .next { s with out := some o } ∧
    o.err = 0#3 ∧ o.olen = BitVec.ofNat 6 (codeLen m) ∧ o.dout = c

/-- From every state, `DEC.<m>` of the received word on din completes and drives the outputs o, changing nothing else. -/
def DecGives (m : PayloadLen) (din : Bus) (o : Outputs) : Prop :=
  ∀ s : State, exec (Instr.ofOp .dec m (codeLen m) din) s = .next { s with out := some o }

/-- In how many bits two buses differ. -/
def busDistance (v w : Bus) : Nat := ((List.range 39).filter (fun i => v.getLsbD i != w.getLsbD i)).length

end Sys2Proof.Machine
end

