-- ==== Sys2Proof/Certificates/Slice0/Obligations.lean ====
section
/-! DEFINITION. The statements for the provers, from the numbered rules of spec/. "Only the outputs change" is written
`.next { s with out := some o }`: the inputs, which are all else a state holds, are as before. -/

open Sys2Proof Sys2Proof.Machine

/-! ## The machine -/

/-- O1. Nothing is observed at power-up, nothing after the inputs are driven anew, and something after every completed
evaluation. R172 and R174 of 70_reset_and_hazards.md call the outputs unspecified while an input changes or before T_PD
has passed; that EVERY drive of the inputs, even with the values they had, takes the observation away is the model's
own choice (log entry 2, DEDUCED). The input values at reset are the model's choice too (log entry 1) and no part of
this. -/
def Obligations.ObservationOnlyAfterEvaluation : Prop :=
  State.reset.out = none ∧ (∀ (s : State) (r : Req), (s.present r).out = none ∧ (s.present r).request = r) ∧
    ∀ s t : State, step s = .next t → t.out ≠ none

/-- O2. A step runs the instruction the request decodes to, and on a reserved command drives the error outputs
(30_encoding.md R53, R62). -/
def Obligations.StepRunsDecodedInstruction : Prop :=
  ∀ s : State, (∀ i, decode s.request = .ok i → step s = exec i s) ∧
    (decode s.request = .error .illegalOp →
      step s = .next { s with out := some ⟨4#3, 0#6, 0#39, 0#6, false, 3#2, false⟩ }) ∧
    (decode s.request = .error .unsupportedLen →
      step s = .next { s with out := some ⟨1#3, 0#6, 0#39, 0#6, false, 3#2, false⟩ })

/-- O3. Every output is a function of (CMD, DLEN, DIN) alone, and an evaluation changes nothing but the outputs
(10_state.md R26). -/
def Obligations.OutputsAreFunctionOfInputs : Prop :=
  ∃ f : Cmd → LenWord → Bus → Outputs, ∀ s : State, step s = .next { s with out := some (f s.cmd s.dlen s.din) }

/-- O4. Evaluating twice with the same inputs is idempotent (20_memory.md R44). -/
def Obligations.ReevaluationChangesNothing : Prop :=
  ∀ s t : State, step s = .next t → t.Settled ∧ t.out ≠ none

/-- O5. Every request completes, whatever stands on the ports: an error does not trap (60_exceptions.md R155). So does
every instruction, changing only the outputs. R155 speaks of requests on the ports; that an instruction whose stated
length no port can carry (64 or more, 30_encoding.md R54) completes as well is the model's own choice (log entry 6,
DESIGN CHOICE). -/
def Obligations.EveryRequestCompletes : Prop :=
  (∀ s : State, s.completes) ∧
    ∀ (i : Instr) (s : State), ∃ o, exec i s = .next { s with out := some o }

/-- O6. ERR is the first check of R152 that fails, decided by CMD and DLEN alone. -/
def Obligations.FirstFailedCheckDecidesErr : Prop :=
  ∀ s : State, ∃ o, step s = .next { s with out := some o } ∧ o.err = firstFailedCheck s.cmd s.dlen

/-- O7. When a check raises an error, every other output is at its fixed error value (60_exceptions.md R153). -/
def Obligations.ErrorDrivesFixedOutputs : Prop :=
  ∀ s : State, firstFailedCheck s.cmd s.dlen ≠ 0#3 →
    step s = .next { s with out := some ⟨firstFailedCheck s.cmd s.dlen, 0#6, 0#39, 0#6, false, 3#2, false⟩ }

/-- O8. At reset the observed ports are legal: there are none. -/
def Obligations.PortsLegalAtReset : Prop := State.reset.PortsLegal ∧ State.reset.Settled

/-- O9. Every step keeps the ports legal: the error codes and lengths in range, unused output bits 0, CVALID exactly
with CLS = 01, no partial result on an error. -/
def Obligations.StepKeepsPortsLegal : Prop :=
  ∀ s t : State, s.PortsLegal → step s = .next t → t.PortsLegal

/-! ## Encoding -/

/-- O10. Decoding an encoded well-formed instruction gives it back, with every operand. -/
def Obligations.DecodeInvertsEncode : Prop :=
  ∀ i : Instr, i.wellFormed = true → decode (encode i) = .ok i

/-- O11. Each request word that decodes has one meaning: it is the encoding of the instruction it decodes to, which is
well-formed. -/
def Obligations.EncodeInvertsDecode : Prop :=
  ∀ (r : Req) (i : Instr), decode r = .ok i → encode i = r ∧ i.wellFormed = true

/-- O12. The command map, all 16 values of CMD, whatever DLEN and DIN are (30_encoding.md R51, R52, R53). -/
def Obligations.CommandMapDecodes : Prop :=
  ∀ (dlen : LenWord) (din : Bus),
    decode (reqOfPorts 0#4 dlen din) = .ok (.enc8 dlen.toNat din) ∧
    decode (reqOfPorts 1#4 dlen din) = .ok (.enc16 dlen.toNat din) ∧
    decode (reqOfPorts 2#4 dlen din) = .ok (.enc32 dlen.toNat din) ∧
    decode (reqOfPorts 3#4 dlen din) = .error .unsupportedLen ∧
    decode (reqOfPorts 4#4 dlen din) = .ok (.dec8 dlen.toNat din) ∧
    decode (reqOfPorts 5#4 dlen din) = .ok (.dec16 dlen.toNat din) ∧
    decode (reqOfPorts 6#4 dlen din) = .ok (.dec32 dlen.toNat din) ∧
    decode (reqOfPorts 7#4 dlen din) = .error .unsupportedLen ∧
    ∀ cmd : Cmd, 8 ≤ cmd.toNat → decode (reqOfPorts cmd dlen din) = .error .illegalOp

/-- O13. Presenting a well-formed instruction's encoding makes the next step run exactly that instruction. -/
def Obligations.PresentedInstructionRuns : Prop :=
  ∀ (i : Instr) (s : State), i.wellFormed = true →
    step (s.present (encode i)) = exec i (s.present (encode i))

/-- O14. Request words of the worked programs decode to the instruction they stand for (95_test_vectors.md §3). -/
def Obligations.ListedRequestWordsDecode : Prop :=
  decode 0x00400000000B2#49 = .ok (.enc8 8 0xB2#39) ∧
  decode 0x028000000B2C5#49 = .ok (.enc16 16 0xB2C5#39) ∧
  decode 0x05000DEADBEEF#49 = .ok (.enc32 32 0xDEADBEEF#39) ∧
  decode 0x0868000000BB2#49 = .ok (.dec8 13 0x0BB2#39) ∧
  decode 0x0AB000006ACA0#49 = .ok (.dec16 22 0x06ACA0#39) ∧
  decode 0x0D3B7D5B76E77#49 = .ok (.dec32 39 0x37D5B76E77#39) ∧
  decode 0x1040000000000#49 = .error .illegalOp ∧
  decode 0x06400000000B2#49 = .error .unsupportedLen

/-! ## The encoder -/

/-- O15. ENC.8, ENC.16 and ENC.32 complete when DLEN = m, from every state, with the port values of the table of
41_encoder.md R96. The table's values of SYN, OPC, CLS and CVALID are the spec's own decision (92_eei_decisions.md
D14). -/
def Obligations.EncDrivesCodewordPorts : Prop :=
  ∀ (din : Bus) (s : State),
    (∃ o, exec (.enc8 8 din) s = .next { s with out := some o } ∧ o.err = 0#3 ∧ o.olen = 13#6 ∧
      (∀ i, 1 ≤ i → i ≤ 13 → busAt o.dout i = bitAt (encodePayload .len8 (payloadOfBus .len8 din)) i) ∧
      (∀ j, 13 ≤ j → o.dout.getLsbD j = false) ∧
      o.syn = 0#6 ∧ o.opc = false ∧ o.cls = 3#2 ∧ o.cvalid = false) ∧
    (∃ o, exec (.enc16 16 din) s = .next { s with out := some o } ∧ o.err = 0#3 ∧ o.olen = 22#6 ∧
      (∀ i, 1 ≤ i → i ≤ 22 → busAt o.dout i = bitAt (encodePayload .len16 (payloadOfBus .len16 din)) i) ∧
      (∀ j, 22 ≤ j → o.dout.getLsbD j = false) ∧
      o.syn = 0#6 ∧ o.opc = false ∧ o.cls = 3#2 ∧ o.cvalid = false) ∧
    (∃ o, exec (.enc32 32 din) s = .next { s with out := some o } ∧ o.err = 0#3 ∧ o.olen = 39#6 ∧
      (∀ i, 1 ≤ i → i ≤ 39 → busAt o.dout i = bitAt (encodePayload .len32 (payloadOfBus .len32 din)) i) ∧
      o.syn = 0#6 ∧ o.opc = false ∧ o.cls = 3#2 ∧ o.cvalid = false)

/-- O16. ENC with a stated length other than m: InvalidLength when it is none of 8, 16, 32, InvalidCharacter when it is
another of them, with the error outputs and nothing else changed (60_exceptions.md R150, R152, R153). The rules say so
of the lengths DLEN carries, up to 63; the same outcome for a length of 64 or more, which cannot be presented
(30_encoding.md R54), is the model's own choice (log entry 6, DESIGN CHOICE). -/
def Obligations.EncWrongLengthRaises : Prop :=
  ∀ (m : PayloadLen) (dlen : Nat) (din : Bus) (s : State), dlen ≠ payloadBits m →
    exec (Instr.ofOp .enc m dlen din) s = .next { s with
      out := some ⟨if dlen = 8 ∨ dlen = 16 ∨ dlen = 32 then 2#3 else 1#3, 0#6, 0#39, 0#6, false, 3#2, false⟩ }

/-- O17. Payload bus bit DIN[k] lands at the k-th data position (30_encoding.md R59), which is how the reversed payload
fills the data positions (41_encoder.md R91, R92). -/
def Obligations.EncPlacesPayloadBits : Prop :=
  ∀ (m : PayloadLen) (din : Bus), ∃ c, EncGives m din c ∧
    ∀ k, k < payloadBits m → busAt c (dataPos m k) = din.getLsbD k

/-- O18. Each Hamming parity bit is the XOR of the data positions it covers (41_encoder.md R93). -/
def Obligations.EncParityBitsCoverData : Prop :=
  ∀ (m : PayloadLen) (din : Bus), ∃ c, EncGives m din c ∧
    ∀ k, k < parityCount m → busAt c (2 ^ k) =
      xorBus c ((coveredPositions (2 ^ k) (dataTotal m)).filter (fun j => !isPowerOfTwo j))

/-- O19. The overall-parity bit is the XOR of all dataTotal preceding bits (41_encoder.md R94). -/
def Obligations.EncOverallBitIsParity : Prop :=
  ∀ (m : PayloadLen) (din : Bus), ∃ c, EncGives m din c ∧
    busAt c (codeLen m) = xorBus c (positionsUpTo (dataTotal m))

/-- O20. In every codeword of ENC each check is 0 and the overall XOR is 0 (41_encoder.md R97). -/
def Obligations.CodewordChecksAreZero : Prop :=
  ∀ (m : PayloadLen) (din : Bus), ∃ c, EncGives m din c ∧
    (∀ k, k < parityCount m → xorBus c (coveredPositions (2 ^ k) (dataTotal m)) = false) ∧
    xorBus c (positionsUpTo (codeLen m)) = false

/-- O21. The payload is recovered from the codeword by the caller's mapping (41_encoder.md R98). -/
def Obligations.PayloadRecoverable : Prop :=
  ∀ (m : PayloadLen) (din : Bus), ∃ c, EncGives m din c ∧ extractPayload m c = lowBits (payloadBits m) din

/-- O22. ENC is linear over GF(2), and the zero payload gives the zero codeword (41_encoder.md R100). -/
def Obligations.EncIsLinear : Prop :=
  ∀ (m : PayloadLen) (a b : Bus), ∃ ca cb, EncGives m a ca ∧ EncGives m b cb ∧
    EncGives m (a ^^^ b) (ca ^^^ cb) ∧ EncGives m 0#39 0#39

/-- O23. Two payloads of one length that differ give codewords that differ in at least 4 positions (41_encoder.md R99). -/
def Obligations.CodewordsDifferInFourPositions : Prop :=
  ∀ (m : PayloadLen) (a b : Bus), lowBits (payloadBits m) a ≠ lowBits (payloadBits m) b →
    ∃ ca cb, EncGives m a ca ∧ EncGives m b cb ∧ 4 ≤ busDistance ca cb

/-! ## The decoder -/

/-- O24. DEC.8, DEC.16 and DEC.32 complete when DLEN = n, from every state, and drive the check bits, 0 above them, and
the overall parity check of the received word; the syndrome bit sequence is SYN's bits, most significant check first
(42_syndrome.md R111, R112, R113). -/
def Obligations.DecDrivesSyndromePorts : Prop :=
  ∀ (din : Bus) (s : State),
    (∃ o, exec (.dec8 13 din) s = .next { s with out := some o } ∧ o.err = 0#3 ∧ o.olen = 13#6 ∧
      (∀ k, k < 4 → o.syn.getLsbD k = xorBus din (coveredPositions (2 ^ k) 12)) ∧
      (∀ k, 4 ≤ k → o.syn.getLsbD k = false) ∧
      syndromeBits .len8 (codewordOfBus .len8 din) = (List.range 4).map (fun t => o.syn.getLsbD (3 - t)) ∧
      o.opc = xorBus din (positionsUpTo 13)) ∧
    (∃ o, exec (.dec16 22 din) s = .next { s with out := some o } ∧ o.err = 0#3 ∧ o.olen = 22#6 ∧
      (∀ k, k < 5 → o.syn.getLsbD k = xorBus din (coveredPositions (2 ^ k) 21)) ∧
      (∀ k, 5 ≤ k → o.syn.getLsbD k = false) ∧
      syndromeBits .len16 (codewordOfBus .len16 din) = (List.range 5).map (fun t => o.syn.getLsbD (4 - t)) ∧
      o.opc = xorBus din (positionsUpTo 22)) ∧
    (∃ o, exec (.dec32 39 din) s = .next { s with out := some o } ∧ o.err = 0#3 ∧ o.olen = 39#6 ∧
      (∀ k, k < 6 → o.syn.getLsbD k = xorBus din (coveredPositions (2 ^ k) 38)) ∧
      syndromeBits .len32 (codewordOfBus .len32 din) = (List.range 6).map (fun t => o.syn.getLsbD (5 - t)) ∧
      o.opc = xorBus din (positionsUpTo 39))

/-- O25. The decision table over SYN = 0 and OPC, the CLS codes, CVALID and the corrected output: only
SingleCorrectable(s) with s ≤ n flips a bit, bit s-1 (43_classify_correct.md R130 to R134). -/
def Obligations.DecClassifiesAndCorrects : Prop :=
  ∀ (m : PayloadLen) (din : Bus) (s : State), ∃ o,
    exec (Instr.ofOp .dec m (codeLen m) din) s = .next { s with out := some o } ∧
    (o.syn = 0#6 → o.opc = false →
      o.cls = 0b00#2 ∧ o.cvalid = false ∧ o.dout = lowBits (codeLen m) din) ∧
    (o.syn = 0#6 → o.opc = true →
      o.cls = 0b10#2 ∧ o.cvalid = false ∧ o.dout = lowBits (codeLen m) din) ∧
    (o.syn ≠ 0#6 → o.opc = true → o.cls = 0b01#2 ∧ o.cvalid = true ∧
      o.dout = if o.syn.toNat ≤ codeLen m then lowBits (codeLen m) din ^^^ (1#39 <<< (o.syn.toNat - 1))
        else lowBits (codeLen m) din) ∧
    (o.syn ≠ 0#6 → o.opc = false →
      o.cls = 0b10#2 ∧ o.cvalid = false ∧ o.dout = lowBits (codeLen m) din)

/-- O26. DEC with a stated length other than n raises LengthMismatch, with the error outputs and nothing else changed
(60_exceptions.md R150, R152, R153). The rules say so of the lengths DLEN carries, up to 63; the same outcome for a
length of 64 or more, which cannot be presented (30_encoding.md R54), is the model's own choice (log entry 6, DESIGN
CHOICE). -/
def Obligations.DecWrongLengthRaises : Prop :=
  ∀ (m : PayloadLen) (dlen : Nat) (din : Bus) (s : State), dlen ≠ codeLen m →
    exec (Instr.ofOp .dec m dlen din) s =
      .next { s with out := some ⟨3#3, 0#6, 0#39, 0#6, false, 3#2, false⟩ }

/-- O27. The bits of DIN an operation does not read have no effect: two requests that agree in CMD, DLEN and the bits
read drive equal outputs; a request that raises an error reads no bit (30_encoding.md R57). -/
def Obligations.UnreadBitsHaveNoEffect : Prop :=
  (∀ (op : Op) (m : PayloadLen) (din din' : Bus) (s : State),
    lowBits (requiredLen op m) din = lowBits (requiredLen op m) din' →
      exec (Instr.ofOp op m (requiredLen op m) din) s = exec (Instr.ofOp op m (requiredLen op m) din') s) ∧
  ∀ (s : State) (din' : Bus), firstFailedCheck s.cmd s.dlen ≠ 0#3 →
    ∃ o, step s = .next { s with out := some o } ∧
      step { s with din := din' } = .next { s with din := din', out := some o }

/-! ## Single-error correction, double-error detection -/

/-- O28. No-error round trip (43_classify_correct.md R137). -/
def Obligations.CleanCodewordRoundTrip : Prop :=
  ∀ (m : PayloadLen) (din : Bus), ∃ c, EncGives m din c ∧
    DecGives m c ⟨0#3, BitVec.ofNat 6 (codeLen m), c, 0#6, false, 0b00#2, false⟩

/-- O29. Every single error in positions 1 to dataTotal is corrected and located (43_classify_correct.md R138). -/
def Obligations.SingleErrorsCorrected : Prop :=
  ∀ (m : PayloadLen) (din : Bus) (i : Nat), 1 ≤ i → i ≤ dataTotal m → ∃ c rx, EncGives m din c ∧
    corrupt (codeLen m) c [i] = .ok rx ∧
    DecGives m rx ⟨0#3, BitVec.ofNat 6 (codeLen m), c, BitVec.ofNat 6 i, true, 0b01#2, true⟩

/-- O30. A single error in the overall-parity bit is reported DoubleUncorrectable with SYN = 0, and the received word is
left as it is (43_classify_correct.md R139). -/
def Obligations.OverallBitErrorReported : Prop :=
  ∀ (m : PayloadLen) (din : Bus), ∃ c rx, EncGives m din c ∧
    corrupt (codeLen m) c [codeLen m] = .ok rx ∧ rx ≠ c ∧
    DecGives m rx ⟨0#3, BitVec.ofNat 6 (codeLen m), rx, 0#6, true, 0b10#2, false⟩

/-- O31. Every double error is detected and nothing is flipped (43_classify_correct.md R140). -/
def Obligations.DoubleErrorsDetected : Prop :=
  ∀ (m : PayloadLen) (din : Bus) (i j : Nat), 1 ≤ i → i ≤ codeLen m → 1 ≤ j → j ≤ codeLen m → i ≠ j →
    ∃ c rx syn, EncGives m din c ∧ corrupt (codeLen m) c [i, j] = .ok rx ∧ syn ≠ 0#6 ∧
      DecGives m rx ⟨0#3, BitVec.ofNat 6 (codeLen m), rx, syn, false, 0b10#2, false⟩

/-- O32. The syndrome of a corrupted codeword is the XOR of the flipped positions up to dataTotal, and the overall
parity check is the parity of their number, whatever the codeword is; two flips never give syndrome 0 (42_syndrome.md
R114). -/
def Obligations.SyndromeOfErrorPattern : Prop :=
  ∀ (m : PayloadLen) (din : Bus) (flips : List Nat), flips.Nodup → (∀ i ∈ flips, 1 ≤ i ∧ i ≤ codeLen m) →
    ∃ c rx o, EncGives m din c ∧ corrupt (codeLen m) c flips = .ok rx ∧ DecGives m rx o ∧
      o.syn.toNat = (flips.filter (fun j => decide (j ≤ dataTotal m))).foldr (fun j acc => j ^^^ acc) 0 ∧
      o.opc = decide (flips.length % 2 = 1) ∧ (flips.length = 2 → o.syn ≠ 0#6)

/-! ## The parity layout and the caller -/

/-- O33. isPowerOfTwo(x) is true exactly of the numbers with one set bit (40_parity_layout.md R71). -/
def Obligations.PowerOfTwoHasOneSetBit : Prop :=
  ∀ x : Nat, isPowerOfTwo x = true ↔ ∃ k, x = 2 ^ k

/-- O34. coveredPositions(p, total) is all j of 1..total that share a bit with p, in increasing order
(40_parity_layout.md R75). -/
def Obligations.CoveredPositionsExactly : Prop :=
  ∀ p total : Nat, (∀ j, j ∈ coveredPositions p total ↔ 1 ≤ j ∧ j ≤ total ∧ j &&& p ≠ 0) ∧
    (coveredPositions p total).Pairwise (· < ·)

/-- O35. No parity position lies in the covered set of another (40_parity_layout.md R78). -/
def Obligations.ParityBitsIndependent : Prop :=
  ∀ k l total : Nat, k ≠ l → 2 ^ l ∉ coveredPositions (2 ^ k) total

/-- O36. Every position of a codeword has one class: the parity positions are P(m), the overall-parity position is n,
which is no power of two, and m data positions are left, in the order of R76 (40_parity_layout.md R73, R74, R76). -/
def Obligations.PositionClassesCounted : Prop :=
  ∀ m : PayloadLen,
    (positionsUpTo (codeLen m)).filter (fun i => positionClass m i == .parity) = parityPositions m ∧
    (positionsUpTo (codeLen m)).filter (fun i => positionClass m i == .overallParity) = [codeLen m] ∧
    (positionsUpTo (codeLen m)).filter (fun i => positionClass m i == .data) = dataPositions m ∧
    (dataPositions m).length = payloadBits m ∧ isPowerOfTwo (codeLen m) = false

/-- O37. Corrupt inverts exactly the bits of the positions in the set, and fails when one lies outside 1..n
(00_scope.md R12). -/
def Obligations.CorruptFlipsExactly : Prop :=
  ∀ (n : Nat) (c : Bus) (positions : List Nat), n ≤ 39 →
    ((∃ i ∈ positions, i < 1 ∨ n < i) → corrupt n c positions = .error .positionOutOfRange) ∧
    ((∀ i ∈ positions, 1 ≤ i ∧ i ≤ n) → ∃ c', corrupt n c positions = .ok c' ∧
      ∀ i, 1 ≤ i → i ≤ 39 → busAt c' i = (busAt c i ^^ decide (i ∈ positions)))

/-- O38. An ENC or DEC line without `dlen=` whose value is a constant or a variable that is set presents that value,
never raises an error, and leaves the caller's variables (30_encoding.md R63, R64). A line whose variable is not set
ends with the caller's own error and presents nothing. The caller, its errors among it, is the model's own choice (log
entry 10, DESIGN CHOICE). -/
def Obligations.OperationLinesRaiseNoLengthError : Prop :=
  ∀ (op : Op) (m : PayloadLen) (value : CallerValue) (c : Caller),
    (∀ v, valueOf c.vars value = .ok v → ∃ c' o,
      execLine (.op op m value none) c = .ok c' ∧ c'.vars = c.vars ∧
      c'.block.out = some o ∧ o.err = 0#3 ∧ c'.block.din = v) ∧
    (∀ e, valueOf c.vars value = .error e → execLine (.op op m value none) c = .error e)

/-- O39. The tables of the parity layout as the spec lists them: parityCount, which fails for every other length,
dataTotal, n, the parity positions, the data positions and the covered sets (40_parity_layout.md R70, R72, R73, R76,
R77). -/
def Obligations.LayoutTablesAsListed : Prop :=
  (parityCountOf 8 = .ok 4 ∧ parityCountOf 16 = .ok 5 ∧ parityCountOf 32 = .ok 6 ∧
    ∀ m, m ≠ 8 → m ≠ 16 → m ≠ 32 → parityCountOf m = .error .unsupportedLength) ∧
  (dataTotal .len8 = 12 ∧ dataTotal .len16 = 21 ∧ dataTotal .len32 = 38) ∧
  (codeLen .len8 = 13 ∧ codeLen .len16 = 22 ∧ codeLen .len32 = 39 ∧ ∀ m, overallPosition m = codeLen m) ∧
  (parityPositions .len8 = [1, 2, 4, 8] ∧ parityPositions .len16 = [1, 2, 4, 8, 16] ∧
    parityPositions .len32 = [1, 2, 4, 8, 16, 32]) ∧
  ((List.range 8).map (dataPos .len8) = [3, 5, 6, 7, 9, 10, 11, 12] ∧
    (List.range 16).map (dataPos .len16) = [3, 5, 6, 7, 9, 10, 11, 12, 13, 14, 15, 17, 18, 19, 20, 21] ∧
    (List.range 32).map (dataPos .len32) = [3, 5, 6, 7, 9, 10, 11, 12, 13, 14, 15, 17, 18, 19, 20, 21, 22, 23, 24, 25,
      26, 27, 28, 29, 30, 31, 33, 34, 35, 36, 37, 38]) ∧
  (coveredPositions 1 12 = [1, 3, 5, 7, 9, 11] ∧ coveredPositions 2 12 = [2, 3, 6, 7, 10, 11] ∧
    coveredPositions 4 12 = [4, 5, 6, 7, 12] ∧ coveredPositions 8 12 = [8, 9, 10, 11, 12]) ∧
  (coveredPositions 1 21 = [1, 3, 5, 7, 9, 11, 13, 15, 17, 19, 21] ∧
    coveredPositions 2 21 = [2, 3, 6, 7, 10, 11, 14, 15, 18, 19] ∧
    coveredPositions 4 21 = [4, 5, 6, 7, 12, 13, 14, 15, 20, 21] ∧
    coveredPositions 8 21 = [8, 9, 10, 11, 12, 13, 14, 15] ∧ coveredPositions 16 21 = [16, 17, 18, 19, 20, 21]) ∧
  (coveredPositions 1 38 = [1, 3, 5, 7, 9, 11, 13, 15, 17, 19, 21, 23, 25, 27, 29, 31, 33, 35, 37] ∧
    coveredPositions 2 38 = [2, 3, 6, 7, 10, 11, 14, 15, 18, 19, 22, 23, 26, 27, 30, 31, 34, 35, 38] ∧
    coveredPositions 4 38 = [4, 5, 6, 7, 12, 13, 14, 15, 20, 21, 22, 23, 28, 29, 30, 31, 36, 37, 38] ∧
    coveredPositions 8 38 = [8, 9, 10, 11, 12, 13, 14, 15, 24, 25, 26, 27, 28, 29, 30, 31] ∧
    coveredPositions 16 38 = [16, 17, 18, 19, 20, 21, 22, 23, 24, 25, 26, 27, 28, 29, 30, 31] ∧
    coveredPositions 32 38 = [32, 33, 34, 35, 36, 37, 38])
end

