-- ==== Sys2Proof/Config.lean ====
section
/-! DEFINITION. The parameters the spec names OPEN (00_scope.md §4; 92_eei_decisions.md D20, D30). Neither has a value
here, and no definition of the model reads either: the spec says that no rule depends on them (log entry 9). The spec
leaves no RESULT of an evaluation open, so there is no free value beside them. -/

namespace Sys2Proof

/-- `T_PD`, the propagation delay (70_reset_and_hazards.md R172, R176), in a unit the spec does not fix. -/
opaque Config.propagationDelay : Nat

/-- `PLATFORM_MAP`, where a platform places the block (20_memory.md R41), as an uninterpreted token. -/
opaque Config.platformMap : Nat

end Sys2Proof
end

