-- ==== Sys2Proof/Laws/State.lean ====
section
/-! SUPPORT. What each update of a state leaves in each field, and the fields of a request word. -/

namespace Sys2Proof

/-- The two halves of a request word. -/
theorem reqOfPorts_toNat (cmd : Cmd) (dlen : LenWord) (din : Bus) :
    (reqOfPorts cmd dlen din).toNat = (cmd.toNat * 2 ^ 6 + dlen.toNat) * 2 ^ 39 + din.toNat := by
  have h1 := dlen.isLt
  have h2 := din.isLt
  simp only [reqOfPorts, BitVec.toNat_append]
  rw [← Nat.shiftLeft_add_eq_or_of_lt h2, ← Nat.shiftLeft_add_eq_or_of_lt h1, Nat.shiftLeft_eq, Nat.shiftLeft_eq]

@[simp] theorem Req.cmd_reqOfPorts (cmd : Cmd) (dlen : LenWord) (din : Bus) :
    Req.cmd (reqOfPorts cmd dlen din) = cmd := by
  have h1 := cmd.isLt
  have h2 := dlen.isLt
  have h3 := din.isLt
  apply BitVec.eq_of_toNat_eq
  simp only [Req.cmd, BitVec.extractLsb'_toNat, reqOfPorts_toNat, Nat.shiftRight_eq_div_pow]
  omega

@[simp] theorem Req.dlen_reqOfPorts (cmd : Cmd) (dlen : LenWord) (din : Bus) :
    Req.dlen (reqOfPorts cmd dlen din) = dlen := by
  have h1 := cmd.isLt
  have h2 := dlen.isLt
  have h3 := din.isLt
  apply BitVec.eq_of_toNat_eq
  simp only [Req.dlen, BitVec.extractLsb'_toNat, reqOfPorts_toNat, Nat.shiftRight_eq_div_pow]
  omega

@[simp] theorem Req.din_reqOfPorts (cmd : Cmd) (dlen : LenWord) (din : Bus) :
    Req.din (reqOfPorts cmd dlen din) = din := by
  have h1 := cmd.isLt
  have h2 := dlen.isLt
  have h3 := din.isLt
  apply BitVec.eq_of_toNat_eq
  simp only [Req.din, BitVec.extractLsb'_toNat, reqOfPorts_toNat, Nat.shiftRight_eq_div_pow]
  omega

/-- OP and LEN are the halves of CMD (30_encoding.md R50). -/
theorem Req.op_eq_cmd (r : Req) : Req.op r = (Req.cmd r).extractLsb' 2 2 := by
  apply BitVec.eq_of_toNat_eq
  simp only [Req.cmd, Req.op, BitVec.extractLsb'_toNat, Nat.shiftRight_eq_div_pow]
  omega

theorem Req.len_eq_cmd (r : Req) : Req.len r = (Req.cmd r).extractLsb' 0 2 := by
  apply BitVec.eq_of_toNat_eq
  simp only [Req.cmd, Req.len, BitVec.extractLsb'_toNat, Nat.shiftRight_eq_div_pow]
  omega

/-- A request word is its three fields. -/
@[simp] theorem reqOfPorts_fields (r : Req) : reqOfPorts (Req.cmd r) (Req.dlen r) (Req.din r) = r := by
  have h := r.isLt
  apply BitVec.eq_of_toNat_eq
  simp only [reqOfPorts_toNat, Req.cmd, Req.dlen, Req.din, BitVec.extractLsb'_toNat, Nat.shiftRight_eq_div_pow]
  omega

namespace Machine

@[simp] theorem State.present_cmd (s : State) (r : Req) : (s.present r).cmd = Req.cmd r := rfl
@[simp] theorem State.present_dlen (s : State) (r : Req) : (s.present r).dlen = Req.dlen r := rfl
@[simp] theorem State.present_din (s : State) (r : Req) : (s.present r).din = Req.din r := rfl
@[simp] theorem State.present_out (s : State) (r : Req) : (s.present r).out = none := rfl

/-- What is presented is what the next evaluation reads. -/
@[simp] theorem State.present_request (s : State) (r : Req) : (s.present r).request = r := reqOfPorts_fields r

/-- An observation is no part of the request. -/
@[simp] theorem State.request_of_out (s : State) (o : Option Outputs) :
    State.request { s with out := o } = s.request := rfl

end Machine

end Sys2Proof
end

