-- ==== Sys2Proof/Laws/Decode.lean ====
section
/-! SUPPORT. The fields of an encoded instruction, and the decoder on the fields. -/

namespace Sys2Proof

@[simp] theorem decodeOp_encodeOp (op : Op) : decodeOp (encodeOp op) = some op := by cases op <;> rfl

@[simp] theorem decodeLen_encodeLen (m : PayloadLen) : decodeLen (encodeLen m) = some m := by cases m <;> rfl

/-- The inverse of the OP table: what decodes was encoded so (30_encoding.md R51). -/
theorem encodeOp_of_decodeOp : ∀ (b : BitVec 2) (op : Op), decodeOp b = some op → encodeOp op = b := by decide +revert

/-- The inverse of the LEN table (30_encoding.md R52). -/
theorem encodeLen_of_decodeLen : ∀ (b : BitVec 2) (m : PayloadLen), decodeLen b = some m → encodeLen m = b := by
  decide +revert

theorem Instr.ofOp_op (op : Op) (m : PayloadLen) (dlen : Nat) (din : Bus) :
    (Instr.ofOp op m dlen din).op = op := by cases op <;> cases m <;> rfl

theorem Instr.ofOp_len (op : Op) (m : PayloadLen) (dlen : Nat) (din : Bus) :
    (Instr.ofOp op m dlen din).len = m := by cases op <;> cases m <;> rfl

theorem Instr.ofOp_dlen (op : Op) (m : PayloadLen) (dlen : Nat) (din : Bus) :
    (Instr.ofOp op m dlen din).dlen = dlen := by cases op <;> cases m <;> rfl

theorem Instr.ofOp_din (op : Op) (m : PayloadLen) (dlen : Nat) (din : Bus) :
    (Instr.ofOp op m dlen din).din = din := by cases op <;> cases m <;> rfl

/-- Every instruction is that of its operation, payload length and operands. -/
theorem Instr.ofOp_self (i : Instr) : Instr.ofOp i.op i.len i.dlen i.din = i := by cases i <;> rfl

/-- OP and LEN of an encoded instruction. -/
theorem op_encode (i : Instr) : Req.op (encode i) = encodeOp i.op := by
  rw [Req.op_eq_cmd, encode, Req.cmd_reqOfPorts, encodeCmd]
  generalize encodeOp i.op = a
  generalize encodeLen i.len = b
  decide +revert

theorem len_encode (i : Instr) : Req.len (encode i) = encodeLen i.len := by
  rw [Req.len_eq_cmd, encode, Req.cmd_reqOfPorts, encodeCmd]
  generalize encodeOp i.op = a
  generalize encodeLen i.len = b
  decide +revert

/-- CMD is its halves. -/
theorem cmd_of_halves (r : Req) : (Req.op r ++ Req.len r : Cmd) = Req.cmd r := by
  rw [Req.op_eq_cmd, Req.len_eq_cmd]
  generalize Req.cmd r = c
  decide +revert

/-- All the decoder can answer: an instruction whose fields the request holds, or one of the two rejections with the
field that caused it. -/
theorem decode_cases (r : Req) :
    (∃ op m, decodeOp (Req.op r) = some op ∧ decodeLen (Req.len r) = some m ∧
      decode r = .ok (Instr.ofOp op m (Req.dlen r).toNat (Req.din r))) ∨
    (decodeOp (Req.op r) = none ∧ decode r = .error .illegalOp) ∨
    ((decodeOp (Req.op r)).isSome ∧ decodeLen (Req.len r) = none ∧ decode r = .error .unsupportedLen) := by
  cases hop : decodeOp (Req.op r) with
  | none => exact .inr (.inl ⟨rfl, by simp [decode, hop]⟩)
  | some op =>
    cases hlen : decodeLen (Req.len r) with
    | none => exact .inr (.inr ⟨rfl, rfl, by simp [decode, hop, hlen]⟩)
    | some m => exact .inl ⟨op, m, rfl, rfl, by simp [decode, hop, hlen]⟩

end Sys2Proof
end

