-- ==== Sys2Proof/Laws/Operands.lean ====
section
/-! SUPPORT. Sequences on buses, and XOR over a list of positions: it is additive, and each layout function is read
bit by bit. -/

namespace Sys2Proof.Machine

/-- The positions 1..k. -/
@[simp] theorem mem_positionsUpTo (k j : Nat) : j ∈ positionsUpTo k ↔ 1 ≤ j ∧ j ≤ k := by
  simp only [positionsUpTo, List.mem_range'_1]
  omega

/-- The bits of the number a sequence stands for are the sequence. -/
theorem testBit_seqValue : ∀ (c : BitSeq) (i : Nat), (seqValue c).testBit i = c.getD i false
  | [], i => by simp [seqValue]
  | b :: c, 0 => by cases b <;> simp [seqValue, Nat.testBit_zero]
  | b :: c, i + 1 => by
    rw [Nat.testBit_succ]
    have h : seqValue (b :: c) / 2 = seqValue c := by
      simp only [seqValue]
      cases b <;> simp only [Bool.toNat_false, Bool.toNat_true] <;> omega
    rw [h, testBit_seqValue c i]
    simp

/-- DOUT holds the sequence, its first bit on bus bit 0, and 0 above it (30_encoding.md R56, R58). -/
theorem getLsbD_busOfCodeword (c : BitSeq) (i : Nat) (hi : i < 39) : (busOfCodeword c).getLsbD i = c.getD i false := by
  rw [busOfCodeword, BitVec.getLsbD_ofNat, testBit_seqValue, decide_eq_true hi, Bool.true_and]

/-- The same by position. -/
theorem busAt_busOfCodeword (c : BitSeq) (i : Nat) (h1 : 1 ≤ i) (h2 : i ≤ 39) :
    busAt (busOfCodeword c) i = bitAt c i := by
  obtain ⟨k, rfl⟩ := Nat.exists_eq_succ_of_ne_zero (show i ≠ 0 by omega)
  simp only [busAt, Nat.succ_eq_add_one, Nat.add_sub_cancel, bitAt]
  exact getLsbD_busOfCodeword c k (by omega)

@[simp] theorem length_codewordOfBus (m : PayloadLen) (din : Bus) : (codewordOfBus m din).length = codeLen m := by
  simp [codewordOfBus]

@[simp] theorem length_payloadOfBus (m : PayloadLen) (din : Bus) : (payloadOfBus m din).length = payloadBits m := by
  simp [payloadOfBus]

/-- The received codeword, position by position (30_encoding.md R56). -/
theorem bitAt_codewordOfBus (m : PayloadLen) (din : Bus) (i : Nat) (h1 : 1 ≤ i) (h2 : i ≤ codeLen m) :
    bitAt (codewordOfBus m din) i = busAt din i := by
  obtain ⟨k, rfl⟩ := Nat.exists_eq_succ_of_ne_zero (show i ≠ 0 by omega)
  have hk : k < codeLen m := by omega
  simp [bitAt, codewordOfBus, busAt, List.getD_eq_getElem?_getD, hk]

/-- XOR over positions looks only at the positions. -/
theorem xorAt_codewordOfBus (m : PayloadLen) (din : Bus) (l : List Nat) (h : ∀ j ∈ l, 1 ≤ j ∧ j ≤ codeLen m) :
    xorAt (codewordOfBus m din) l = xorBus din l := by
  induction l with
  | nil => rfl
  | cons j l ih =>
    have hj := h j (by simp)
    simp only [xorAt, xorBus, List.foldr_cons] at ih ⊢
    rw [ih (fun i hi => h i (by simp [hi])), bitAt_codewordOfBus m din j hj.1 hj.2]

/-- XOR over positions is additive in the bus (00_scope.md R8). -/
theorem xorBus_xor (v w : Bus) (l : List Nat) : xorBus (v ^^^ w) l = (xorBus v l ^^ xorBus w l) := by
  induction l with
  | nil => rfl
  | cons j l ih =>
    simp only [xorBus, List.foldr_cons] at ih ⊢
    rw [ih]
    simp only [busAt, BitVec.getLsbD_xor]
    generalize v.getLsbD (j - 1) = a
    generalize w.getLsbD (j - 1) = b
    cases a <;> cases b <;> simp

/-- Two buses with the same bits at the positions have the same XOR over them. -/
theorem xorBus_congr (v w : Bus) (l : List Nat) (h : ∀ j ∈ l, busAt v j = busAt w j) : xorBus v l = xorBus w l := by
  induction l with
  | nil => rfl
  | cons j l ih =>
    simp only [xorBus, List.foldr_cons] at ih ⊢
    rw [ih (fun i hi => h i (by simp [hi])), h j (by simp)]

/-- The low bits of a bus, bit by bit. -/
theorem getLsbD_lowBits (n : Nat) (v : Bus) (i : Nat) : (lowBits n v).getLsbD i = (decide (i < n) && v.getLsbD i) := by
  by_cases hi : i < 39
  · rw [lowBits, BitVec.getLsbD_ofNat, Nat.testBit_mod_two_pow, BitVec.testBit_toNat, decide_eq_true hi, Bool.true_and]
  · rw [BitVec.getLsbD_of_ge _ i (by omega), BitVec.getLsbD_of_ge v i (by omega), Bool.and_false]

/-- ENC's length check, all cases (60_exceptions.md R152). -/
theorem checkEncLen_cases (m : PayloadLen) (dlen : Nat) :
    (dlen = payloadBits m ∧ checkEncLen m dlen = none) ∨
    (dlen ≠ payloadBits m ∧ (dlen = 8 ∨ dlen = 16 ∨ dlen = 32) ∧ checkEncLen m dlen = some .invalidCharacter) ∨
    (dlen ≠ payloadBits m ∧ ¬(dlen = 8 ∨ dlen = 16 ∨ dlen = 32) ∧ checkEncLen m dlen = some .invalidLength) := by
  unfold checkEncLen
  cases m <;> simp only [payloadBits] <;> split_ifs <;> simp_all <;> omega

/-- DEC's length check, both cases (60_exceptions.md R152). -/
theorem checkDecLen_cases (m : PayloadLen) (dlen : Nat) :
    (dlen = codeLen m ∧ checkDecLen m dlen = none) ∨
    (dlen ≠ codeLen m ∧ checkDecLen m dlen = some .lengthMismatch) := by
  unfold checkDecLen
  split_ifs with h
  · exact .inr ⟨h, rfl⟩
  · exact .inl ⟨not_not.mp h, rfl⟩

end Sys2Proof.Machine
end

