-- ==== Sys2Proof/Laws/Layout.lean ====
section
/-! SUPPORT. The parity layout: membership in the covered sets, and bounds of the positions. -/

namespace Sys2Proof.Machine

theorem codeLen_le (m : PayloadLen) : codeLen m ≤ 39 := by cases m <;> decide

theorem parityCount_le (m : PayloadLen) : parityCount m ≤ 6 := by cases m <;> decide

/-- A parity position is a position of the working array (40_parity_layout.md R73: "all ≤ dataTotal"). -/
theorem parityPosition_le (m : PayloadLen) (k : Nat) (hk : k < parityCount m) : 2 ^ k ≤ dataTotal m := by
  cases m <;> simp only [parityCount] at hk <;> interval_cases k <;> decide

/-- Membership in a covered set. -/
theorem mem_coveredPositions (p total j : Nat) :
    j ∈ coveredPositions p total ↔ (1 ≤ j ∧ j ≤ total) ∧ j &&& p ≠ 0 := by
  simp [coveredPositions]

/-- Covering by 2^k is bit k of the position (40_parity_layout.md R79). -/
theorem and_two_pow_ne_zero (j k : Nat) : j &&& 2 ^ k ≠ 0 ↔ j.testBit k = true := by
  constructor
  · intro h
    by_contra hk
    apply h
    apply Nat.eq_of_testBit_eq
    intro i
    rw [Nat.testBit_and, Nat.zero_testBit, Nat.testBit_two_pow]
    by_cases hik : k = i
    · subst hik
      rw [Bool.eq_false_iff.mpr hk, Bool.false_and]
    · simp [hik]
  · intro h h0
    have hb := congrArg (fun n => n.testBit k) h0
    rw [Nat.testBit_and, Nat.testBit_two_pow_self, Nat.zero_testBit, h] at hb
    exact Bool.noConfusion hb

/-- The covered positions are positions of the codeword. -/
theorem coveredPositions_range (m : PayloadLen) (p : Nat) :
    ∀ j ∈ coveredPositions p (dataTotal m), 1 ≤ j ∧ j ≤ codeLen m := by
  intro j hj
  have h := ((mem_coveredPositions _ _ _).mp hj).1
  exact ⟨h.1, by simp only [codeLen]; omega⟩

/-- A data position is a position of the working array that is no power of two, and it is read at its place. -/
theorem dataPos_bounds (m : PayloadLen) (k : Nat) (hk : k < payloadBits m) :
    1 ≤ dataPos m k ∧ dataPos m k ≤ dataTotal m := by
  cases m <;> simp only [payloadBits] at hk <;> interval_cases k <;> decide

end Sys2Proof.Machine
end

