-- ==== Sys2Proof/Laws/Decoder.lean ====
section
/-! SUPPORT. The syndrome value bit by bit, the decision table, and all that DEC and a step can answer. -/

namespace Sys2Proof.Machine

/-- Reading a sequence as a binary integer, its last bit is the lowest. -/
theorem binaryValue_append (sbits : BitSeq) (b : Bool) : binaryValue (sbits ++ [b]) = 2 * binaryValue sbits + b.toNat := by
  simp [binaryValue]

/-- The syndrome bits stand most significant first: reversed, they are chk_0, chk_1, ... (42_syndrome.md R111). -/
theorem syndromeBits_eq (m : PayloadLen) (c : BitSeq) :
    syndromeBits m c = ((List.range (parityCount m)).map (checkBit m c)).reverse := by
  have h : ∀ (l : List Nat) (acc : BitSeq),
      l.foldl (fun sbits k => checkBit m c k :: sbits) acc = (l.map (checkBit m c)).reverse ++ acc := by
    intro l
    induction l with
    | nil => intro acc; rfl
    | cons k l ih => intro acc; simp [ih]
  rw [syndromeBits, h, List.append_nil]

/-- A sequence read most significant first is its reverse read least significant first. -/
theorem binaryValue_reverse (l : BitSeq) : binaryValue l.reverse = seqValue l := by
  induction l with
  | nil => rfl
  | cons b l ih => rw [List.reverse_cons, binaryValue_append, ih, seqValue, Nat.add_comm]

/-- SYN[k] = chk_k (42_syndrome.md R112). -/
theorem testBit_syndromeValue (m : PayloadLen) (c : BitSeq) (k : Nat) :
    (syndromeValue m c).testBit k = (decide (k < parityCount m) && checkBit m c k) := by
  rw [syndromeValue, syndromeBits_eq, binaryValue_reverse, testBit_seqValue, List.getD_eq_getElem?_getD]
  by_cases hk : k < parityCount m
  · simp [hk]
  · simp [hk]

/-- The syndrome fits in parityCount bits (42_syndrome.md R110). -/
theorem syndromeValue_lt (m : PayloadLen) (c : BitSeq) : syndromeValue m c < 2 ^ parityCount m := by
  apply Nat.lt_pow_two_of_testBit
  intro i hi
  rw [testBit_syndromeValue, decide_eq_false (Nat.not_lt.mpr hi), Bool.false_and]

/-- So it fits on SYN. -/
theorem syndromeValue_lt_64 (m : PayloadLen) (c : BitSeq) : syndromeValue m c < 64 :=
  Nat.lt_of_lt_of_le (syndromeValue_lt m c) (by cases m <;> decide)

/-- A check of a received word is the XOR of bus bits (42_syndrome.md R111). -/
theorem checkBit_codewordOfBus (m : PayloadLen) (din : Bus) (k : Nat) :
    checkBit m (codewordOfBus m din) k = xorBus din (coveredPositions (2 ^ k) (dataTotal m)) :=
  xorAt_codewordOfBus m din _ (coveredPositions_range m _)

/-- The overall parity check of a received word is the XOR of bus bits (42_syndrome.md R113). -/
theorem overallParityCheck_codewordOfBus (m : PayloadLen) (din : Bus) :
    overallParityCheck m (codewordOfBus m din) = xorBus din (positionsUpTo (codeLen m)) :=
  xorAt_codewordOfBus m din _ (fun _ h => (mem_positionsUpTo _ _).mp h)

/-- The received word, driven back unchanged, is the low n bits of DIN (43_classify_correct.md R132). -/
theorem busOfCodeword_codewordOfBus (m : PayloadLen) (din : Bus) :
    busOfCodeword (codewordOfBus m din) = lowBits (codeLen m) din := by
  apply BitVec.eq_of_getLsbD_eq
  intro i hi
  rw [getLsbD_busOfCodeword _ i hi, getLsbD_lowBits, codewordOfBus, List.getD_eq_getElem?_getD]
  by_cases hn : i < codeLen m
  · simp [hn]
  · simp [hn]

/-- The four rows of the decision table (43_classify_correct.md R130). -/
theorem classify_rows (s : Nat) (opc : Bool) :
    (s = 0 ∧ opc = false ∧ classify s opc = .none) ∨ (s = 0 ∧ opc = true ∧ classify s opc = .doubleUncorrectable) ∨
    (s ≠ 0 ∧ opc = true ∧ classify s opc = .singleCorrectable s) ∨
    (s ≠ 0 ∧ opc = false ∧ classify s opc = .doubleUncorrectable) := by
  by_cases hs : s = 0 <;> cases opc <;> simp [classify, hs]

/-- All that DEC can answer (43_classify_correct.md R135). -/
theorem execDec_cases (m : PayloadLen) (dlen : Nat) (din : Bus) (s : State) :
    (dlen = codeLen m ∧ execDec m dlen din s = .next { s with out := some (decOutputs m din) }) ∨
    (dlen ≠ codeLen m ∧ execDec m dlen din s = .next { s with out := some (errorOutputs .lengthMismatch) }) := by
  rcases checkDecLen_cases m dlen with ⟨h, hc⟩ | ⟨h, hc⟩
  · exact .inl ⟨h, by simp only [execDec, hc, complete]⟩
  · exact .inr ⟨h, by simp only [execDec, hc, raiseError, complete]⟩

/-- The three DEC arms are DEC at their length. -/
theorem exec_ofOp_dec (m : PayloadLen) (dlen : Nat) (din : Bus) (s : State) :
    exec (Instr.ofOp .dec m dlen din) s = execDec m dlen din s := by cases m <;> rfl

/-- All that a step can do: run the instruction the request decodes to, or raise the error of a reserved command. -/
theorem step_cases (s : State) :
    (∃ op m, decode s.request = .ok (Instr.ofOp op m s.dlen.toNat s.din) ∧
      step s = exec (Instr.ofOp op m s.dlen.toNat s.din) s) ∨
    (decode s.request = .error .illegalOp ∧
      step s = .next { s with out := some (errorOutputs .illegalOp) }) ∨
    (decode s.request = .error .unsupportedLen ∧
      step s = .next { s with out := some (errorOutputs .invalidLength) }) := by
  have hd : Req.dlen s.request = s.dlen := Req.dlen_reqOfPorts _ _ _
  have hx : Req.din s.request = s.din := Req.din_reqOfPorts _ _ _
  rcases decode_cases s.request with ⟨op, m, -, -, h⟩ | ⟨-, h⟩ | ⟨-, -, h⟩
  · rw [hd, hx] at h
    exact .inl ⟨op, m, h, by simp only [step, h]⟩
  · exact .inr (.inl ⟨h, by simp only [step, h, execReserved, raiseError, complete, rejectError]⟩)
  · exact .inr (.inr ⟨h, by simp only [step, h, execReserved, raiseError, complete, rejectError]⟩)

end Sys2Proof.Machine
end

