-- ==== Sys2Proof/Laws/Encoder.lean ====
section
/-! SUPPORT. What each step of the encoder leaves at each position, and all that ENC can answer. -/

namespace Sys2Proof.Machine

/-- Replacing a bit changes that position only. -/
theorem bitAt_setBitAt (c : BitSeq) (i j : Nat) (b : Bool) :
    bitAt (setBitAt c i b) j = if i = j ∧ 1 ≤ i ∧ i ≤ c.length then b else bitAt c j := by
  cases i with
  | zero => simp [setBitAt]
  | succ i =>
    cases j with
    | zero => simp [bitAt]
    | succ j =>
      simp only [setBitAt, bitAt, List.getD_eq_getElem?_getD, List.getElem?_set]
      by_cases hij : i = j
      · subst hij
        by_cases hl : i < c.length
        · simp [hl, Nat.succ_le_of_lt hl]
        · simp [hl, Nat.not_le.mpr (Nat.lt_succ_of_le (Nat.not_lt.mp hl))]
      · simp [hij]

@[simp] theorem length_setBitAt (c : BitSeq) (i : Nat) (b : Bool) : (setBitAt c i b).length = c.length := by
  cases i <;> simp [setBitAt]

/-- XOR over positions looks only at the positions. -/
theorem xorAt_congr (c d : BitSeq) (l : List Nat) (h : ∀ j ∈ l, bitAt c j = bitAt d j) : xorAt c l = xorAt d l := by
  induction l with
  | nil => rfl
  | cons j l ih =>
    simp only [xorAt, List.foldr_cons] at ih ⊢
    rw [ih (fun i hi => h i (by simp [hi])), h j (by simp)]

theorem length_placeBits : ∀ (ps : List Nat) (r : BitSeq), (placeBits ps r).length = ps.length
  | [], _ => rfl
  | i :: is, r => by
    unfold placeBits
    split
    · simp [length_placeBits is r]
    · cases r <;> simp [length_placeBits is]

@[simp] theorem length_dataArray (m : PayloadLen) (p : BitSeq) : (dataArray m p).length = dataTotal m := by
  simp [dataArray, length_placeBits, positionsUpTo]

/-- Placement puts payload bus bit DIN[k] at the k-th data position (41_encoder.md R92; 30_encoding.md R59). -/
theorem bitAt_dataArray_dataPos (m : PayloadLen) (din : Bus) (k : Nat) (hk : k < payloadBits m) :
    bitAt (dataArray m (payloadOfBus m din)) (dataPos m k) = din.getLsbD k := by
  cases m <;> simp only [payloadBits] at hk <;> interval_cases k <;> rfl

/-- Placement leaves the powers of two 0. -/
theorem getD_placeBits_power : ∀ (ps : List Nat) (r : BitSeq) (t : Nat), isPowerOfTwo (ps.getD t 0) = true →
    (placeBits ps r).getD t false = false
  | [], r, t, _ => by simp [placeBits]
  | i :: is, r, 0, h => by
    have hi : isPowerOfTwo i = true := by simpa using h
    simp [placeBits, hi]
  | i :: is, r, t + 1, h => by
    have ht : isPowerOfTwo (is.getD t 0) = true := by simpa using h
    unfold placeBits
    split
    · simpa using getD_placeBits_power is r t ht
    · cases r with
      | nil => simpa using getD_placeBits_power is [] t ht
      | cons b r' => simpa using getD_placeBits_power is r' t ht

/-- A power of two is one. -/
theorem isPowerOfTwo_two_pow (k : Nat) : isPowerOfTwo (2 ^ k) = true := by
  have hp : 0 < 2 ^ k := Nat.two_pow_pos k
  have h : 2 ^ k &&& (2 ^ k - 1) = 0 := by
    rw [Nat.and_two_pow_sub_one_eq_mod, Nat.mod_self]
  simp [isPowerOfTwo, hp, h]

/-- Placement leaves the parity positions 0 (41_encoder.md R92). -/
theorem bitAt_dataArray_parity (m : PayloadLen) (p : BitSeq) (k : Nat) (hk : k < parityCount m) :
    bitAt (dataArray m p) (2 ^ k) = false := by
  have hle := parityPosition_le m k hk
  obtain ⟨t, ht⟩ := Nat.exists_eq_succ_of_ne_zero (Nat.two_pow_pos k).ne'
  rw [ht, Nat.succ_eq_add_one, bitAt]
  apply getD_placeBits_power
  have hget : (positionsUpTo (dataTotal m)).getD t 0 = 2 ^ k := by
    have hlt : t < dataTotal m := by omega
    rw [positionsUpTo, List.getD_eq_getElem?_getD, List.getElem?_range' hlt, ht]
    simp
    omega
  rw [hget]
  exact isPowerOfTwo_two_pow k

/-- No parity position is covered by another (40_parity_layout.md R78), so setting one does not change the XOR that
another receives. -/
theorem xorAt_setParityBit (m : PayloadLen) (a : BitSeq) (j k : Nat) (hjk : j ≠ k) :
    xorAt (setParityBit m a j) (coveredPositions (2 ^ k) (dataTotal m)) =
      xorAt a (coveredPositions (2 ^ k) (dataTotal m)) := by
  apply xorAt_congr
  intro i hi
  rw [setParityBit, bitAt_setBitAt, if_neg]
  rintro ⟨rfl, -⟩
  have h := ((mem_coveredPositions _ _ _).mp hi).2
  rw [and_two_pow_ne_zero, Nat.testBit_two_pow] at h
  exact hjk (of_decide_eq_true h)

@[simp] theorem length_setParityBit (m : PayloadLen) (a : BitSeq) (k : Nat) :
    (setParityBit m a k).length = a.length := by simp [setParityBit]

/-- Step 3 after its first K parity bits: those hold the XOR of the ORIGINAL array over their covered sets, and every
other position is as before (41_encoder.md R93). -/
theorem foldl_setParityBit (m : PayloadLen) (a : BitSeq) (ha : a.length = dataTotal m) :
    ∀ K, K ≤ parityCount m →
      ((List.range K).foldl (setParityBit m) a).length = dataTotal m ∧
      (∀ k, k < K → bitAt ((List.range K).foldl (setParityBit m) a) (2 ^ k) =
        xorAt a (coveredPositions (2 ^ k) (dataTotal m))) ∧
      (∀ j, (∀ k, k < K → j ≠ 2 ^ k) → bitAt ((List.range K).foldl (setParityBit m) a) j = bitAt a j) ∧
      (∀ k, K ≤ k → xorAt ((List.range K).foldl (setParityBit m) a) (coveredPositions (2 ^ k) (dataTotal m)) =
        xorAt a (coveredPositions (2 ^ k) (dataTotal m))) := by
  intro K
  induction K with
  | zero => intro _; simp [ha]
  | succ K ih =>
    intro hK
    obtain ⟨hlen, hset, hkeep, hxor⟩ := ih (by omega)
    rw [List.range_succ, List.foldl_append]
    simp only [List.foldl_cons, List.foldl_nil]
    refine ⟨by simpa using hlen, ?_, ?_, ?_⟩
    · intro k hk
      rw [setParityBit, bitAt_setBitAt]
      by_cases hkK : K = k
      · subst hkK
        rw [if_pos ⟨rfl, Nat.one_le_two_pow, by rw [hlen]; exact parityPosition_le m K (by omega)⟩]
        exact hxor K (le_refl K)
      · rw [if_neg (fun h => hkK (Nat.pow_right_injective (le_refl 2) h.1)), hset k (by omega)]
    · intro j hj
      rw [setParityBit, bitAt_setBitAt, if_neg (fun h => hj K (by omega) h.1.symm)]
      exact hkeep j (fun k hk => hj k (by omega))
    · intro k hk
      rw [xorAt_setParityBit m _ K k (by omega)]
      exact hxor k (by omega)

/-- The Hamming part of the codeword at a parity position (41_encoder.md R93). -/
theorem bitAt_parityArray_parity (m : PayloadLen) (a : BitSeq) (ha : a.length = dataTotal m) (k : Nat)
    (hk : k < parityCount m) :
    bitAt (parityArray m a) (2 ^ k) = xorAt a (coveredPositions (2 ^ k) (dataTotal m)) :=
  (foldl_setParityBit m a ha (parityCount m) (le_refl _)).2.1 k hk

/-- The Hamming part of the codeword at every other position (41_encoder.md R93). -/
theorem bitAt_parityArray_other (m : PayloadLen) (a : BitSeq) (ha : a.length = dataTotal m) (j : Nat)
    (hj : ∀ k, k < parityCount m → j ≠ 2 ^ k) : bitAt (parityArray m a) j = bitAt a j :=
  (foldl_setParityBit m a ha (parityCount m) (le_refl _)).2.2.1 j hj

@[simp] theorem length_parityArray (m : PayloadLen) (a : BitSeq) (ha : a.length = dataTotal m) :
    (parityArray m a).length = dataTotal m := (foldl_setParityBit m a ha (parityCount m) (le_refl _)).1

/-- The codeword up to dataTotal is the Hamming part (41_encoder.md R94). -/
theorem bitAt_encodePayload_le (m : PayloadLen) (p : BitSeq) (i : Nat) (hi : i ≤ dataTotal m) :
    bitAt (encodePayload m p) i = bitAt (parityArray m (dataArray m p)) i := by
  cases i with
  | zero => rfl
  | succ i =>
    simp only [encodePayload, appendOverall, bitAt, List.getD_eq_getElem?_getD]
    rw [List.getElem?_append_left (by simp; omega)]

/-- The last bit of the codeword (41_encoder.md R94). -/
theorem bitAt_encodePayload_last (m : PayloadLen) (p : BitSeq) :
    bitAt (encodePayload m p) (codeLen m) = xorAt (encodePayload m p) (positionsUpTo (dataTotal m)) := by
  rw [xorAt_congr (encodePayload m p) (parityArray m (dataArray m p)) _
    (fun j hj => bitAt_encodePayload_le m p j ((mem_positionsUpTo _ _).mp hj).2)]
  simp only [encodePayload, appendOverall, codeLen, bitAt, List.getD_eq_getElem?_getD]
  rw [List.getElem?_append_right (by simp)]
  simp

@[simp] theorem length_encodePayload (m : PayloadLen) (p : BitSeq) : (encodePayload m p).length = codeLen m := by
  simp [encodePayload, appendOverall, codeLen]

/-- All that ENC can answer (41_encoder.md R90): the codeword when the stated length is m, else one of two errors. -/
theorem execEnc_cases (m : PayloadLen) (dlen : Nat) (din : Bus) (s : State) :
    (dlen = payloadBits m ∧ execEnc m dlen din s = .next { s with out := some (encOutputs m din) }) ∨
    (dlen ≠ payloadBits m ∧ (dlen = 8 ∨ dlen = 16 ∨ dlen = 32) ∧
      execEnc m dlen din s = .next { s with out := some (errorOutputs .invalidCharacter) }) ∨
    (dlen ≠ payloadBits m ∧ ¬(dlen = 8 ∨ dlen = 16 ∨ dlen = 32) ∧
      execEnc m dlen din s = .next { s with out := some (errorOutputs .invalidLength) }) := by
  rcases checkEncLen_cases m dlen with ⟨h, hc⟩ | ⟨h, h', hc⟩ | ⟨h, h', hc⟩
  · exact .inl ⟨h, by simp only [execEnc, hc, complete]⟩
  · exact .inr (.inl ⟨h, h', by simp only [execEnc, hc, raiseError, complete]⟩)
  · exact .inr (.inr ⟨h, h', by simp only [execEnc, hc, raiseError, complete]⟩)

/-- The three ENC arms are ENC at their length. -/
theorem exec_ofOp_enc (m : PayloadLen) (dlen : Nat) (din : Bus) (s : State) :
    exec (Instr.ofOp .enc m dlen din) s = execEnc m dlen din s := by cases m <;> rfl

end Sys2Proof.Machine
end

