-- ==== Sys2Proof/Laws/Caller.lean ====
section
/-! SUPPORT. The testbench function Corrupt bit by bit, and the request of a caller's line. -/

namespace Sys2Proof.Machine

/-- The mask of Corrupt at a position: 1 exactly for the positions of the set (00_scope.md R12). -/
theorem busAt_flipMask (n : Nat) (positions : List Nat) (i : Nat) (h1 : 1 ≤ i) (h2 : i ≤ 39) :
    busAt (flipMask n positions) i = (decide (i ≤ n) && decide (i ∈ positions)) := by
  rw [flipMask, busAt_busOfCodeword _ _ h1 h2]
  obtain ⟨k, rfl⟩ := Nat.exists_eq_succ_of_ne_zero (show i ≠ 0 by omega)
  by_cases hk : k < n
  · simp [bitAt, List.getD_eq_getElem?_getD, hk, Nat.succ_le_of_lt hk]
  · simp [bitAt, List.getD_eq_getElem?_getD, hk]

/-- Both ways Corrupt can answer (00_scope.md R12). -/
theorem corrupt_cases (n : Nat) (c : Bus) (positions : List Nat) :
    ((∀ i ∈ positions, 1 ≤ i ∧ i ≤ n) ∧ corrupt n c positions = .ok (c ^^^ flipMask n positions)) ∨
    ((∃ i ∈ positions, ¬(1 ≤ i ∧ i ≤ n)) ∧ corrupt n c positions = .error .positionOutOfRange) := by
  by_cases h : ∀ i ∈ positions, 1 ≤ i ∧ i ≤ n
  · have hall : positions.all (fun i => decide (1 ≤ i ∧ i ≤ n)) = true :=
      List.all_eq_true.mpr (fun i hi => decide_eq_true (h i hi))
    exact .inl ⟨h, by rw [corrupt, if_pos hall]⟩
  · have hall : ¬positions.all (fun i => decide (1 ≤ i ∧ i ≤ n)) = true :=
      fun ha => h (fun i hi => of_decide_eq_true (List.all_eq_true.mp ha i hi))
    exact .inr ⟨by simpa only [not_forall, exists_prop] using h, by rw [corrupt, if_neg hall]⟩

/-- Masking to the low bits is additive. -/
theorem lowBits_xor (n : Nat) (v w : Bus) : lowBits n (v ^^^ w) = lowBits n v ^^^ lowBits n w := by
  apply BitVec.eq_of_getLsbD_eq
  intro i _
  simp only [BitVec.getLsbD_xor, getLsbD_lowBits]
  cases decide (i < n) <;> simp

/-- XOR over two lists of positions, one after the other. -/
theorem xorBus_append (v : Bus) (a b : List Nat) : xorBus v (a ++ b) = (xorBus v a ^^ xorBus v b) := by
  induction a with
  | nil => simp [xorBus]
  | cons j a ih =>
    simp only [xorBus, List.cons_append, List.foldr_cons] at ih ⊢
    rw [ih, Bool.xor_assoc]

/-- The bus of a codeword holds nothing above the codeword (30_encoding.md R58). -/
theorem lowBits_busOfCodeword (n : Nat) (c : BitSeq) (hc : c.length ≤ n) :
    lowBits n (busOfCodeword c) = busOfCodeword c := by
  apply BitVec.eq_of_getLsbD_eq
  intro i hi
  rw [getLsbD_lowBits, getLsbD_busOfCodeword c i hi]
  by_cases h : i < n
  · simp [h]
  · simp [h, List.getD_eq_getElem?_getD, List.getElem?_eq_none (Nat.le_trans hc (Nat.not_lt.mp h))]

/-- The request of an operation line is the encoding of the instruction with the length the line states
(30_encoding.md R63). -/
theorem lineRequest_eq_encode (op : Op) (m : PayloadLen) (v : Bus) (dlen : Option LenWord) :
    lineRequest op m v dlen = encode (Instr.ofOp op m (lineLen op m dlen).toNat v) := by
  simp [lineRequest, encode, encodeCmd, Instr.ofOp_op, Instr.ofOp_len, Instr.ofOp_dlen, Instr.ofOp_din]

end Sys2Proof.Machine
end

