-- ==== Sys2Proof/Laws/PerInstr.lean ====
section
/-! SUPPORT. Per instruction: its encoding lies in its row of spec/opcode_table.json (mask 0x1E00000000000, the row's
match), whatever its operands are. -/

namespace Sys2Proof.Laws.OpcodeRow

/-- The `match` value of the instruction's row. -/
def rowMatch : Instr → Req
  | .enc8 _ _ => 0x0000000000000#49
  | .enc16 _ _ => 0x0200000000000#49
  | .enc32 _ _ => 0x0400000000000#49
  | .dec8 _ _ => 0x0800000000000#49
  | .dec16 _ _ => 0x0A00000000000#49
  | .dec32 _ _ => 0x0C00000000000#49

/-- The encoding of an instruction agrees with its row's match in the masked bits. -/
def Statement (i : Instr) : Prop := encode i &&& 0x1E00000000000#49 = rowMatch i

/-- The masked bits are CMD. -/
theorem mask_is_cmd (r : Req) : r &&& 0x1E00000000000#49 = reqOfPorts (Req.cmd r) 0#6 0#39 := by
  apply BitVec.eq_of_toNat_eq
  rw [reqOfPorts_toNat, BitVec.toNat_and]
  apply Nat.eq_of_testBit_eq
  intro j
  have hr : (((Req.cmd r).toNat * 2 ^ 6 + (0#6).toNat) * 2 ^ 39 + (0#39).toNat) = (Req.cmd r).toNat <<< 45 := by
    rw [Nat.shiftLeft_eq]
    simp only [BitVec.toNat_ofNat]
    omega
  rw [hr, Nat.testBit_and, show (0x1E00000000000#49).toNat = (2 ^ 4 - 1) <<< 45 from by decide, Nat.testBit_shiftLeft,
    Nat.testBit_shiftLeft, Nat.testBit_two_pow_sub_one]
  by_cases hj : 45 ≤ j
  · obtain ⟨k, rfl⟩ := Nat.exists_eq_add_of_le hj
    simp only [Req.cmd, BitVec.extractLsb'_toNat, Nat.testBit_mod_two_pow, Nat.testBit_shiftRight,
      Nat.add_sub_cancel_left]
    cases r.toNat.testBit (45 + k) <;> simp
  · simp [hj]

theorem of_cmd (i : Instr) (h : reqOfPorts (encodeCmd i) 0#6 0#39 = rowMatch i) : Statement i := by
  rw [Statement, mask_is_cmd, encode, Req.cmd_reqOfPorts, h]

theorem enc8 (dlen : Nat) (din : Bus) : Statement (.enc8 dlen din) :=
  of_cmd _ (show reqOfPorts (encodeOp .enc ++ encodeLen .len8) 0#6 0#39 = 0x0000000000000#49 by decide)
theorem enc16 (dlen : Nat) (din : Bus) : Statement (.enc16 dlen din) :=
  of_cmd _ (show reqOfPorts (encodeOp .enc ++ encodeLen .len16) 0#6 0#39 = 0x0200000000000#49 by decide)
theorem enc32 (dlen : Nat) (din : Bus) : Statement (.enc32 dlen din) :=
  of_cmd _ (show reqOfPorts (encodeOp .enc ++ encodeLen .len32) 0#6 0#39 = 0x0400000000000#49 by decide)
theorem dec8 (dlen : Nat) (din : Bus) : Statement (.dec8 dlen din) :=
  of_cmd _ (show reqOfPorts (encodeOp .dec ++ encodeLen .len8) 0#6 0#39 = 0x0800000000000#49 by decide)
theorem dec16 (dlen : Nat) (din : Bus) : Statement (.dec16 dlen din) :=
  of_cmd _ (show reqOfPorts (encodeOp .dec ++ encodeLen .len16) 0#6 0#39 = 0x0A00000000000#49 by decide)
theorem dec32 (dlen : Nat) (din : Bus) : Statement (.dec32 dlen din) :=
  of_cmd _ (show reqOfPorts (encodeOp .dec ++ encodeLen .len32) 0#6 0#39 = 0x0C00000000000#49 by decide)

end Sys2Proof.Laws.OpcodeRow
end

