-- ==== Sys2Proof/Tests/Slice0.lean ====
section
/-! SUPPORT. The model's own tests. Expected values are those of spec/ (95_test_vectors.md, the tables of the rules),
named in each comment; the witnesses show that the hypotheses of the statements can be met. -/

namespace Sys2Proof.Tests

open Sys2Proof Sys2Proof.Machine

/-- A block with the given inputs and nothing observed. -/
def ports (cmd : Cmd) (dlen : LenWord) (din : Bus) : State := ⟨cmd, dlen, din, none⟩

/-- The outputs a step drives. -/
def outs : Host.Outcome State Fault Refusal → Option Outputs
  | .next t => t.out
  | .fault _ => none
  | .refused _ => none

/-- The observed DOUT, SYN and CLS of a step. -/
def seen (s : State) : Option (Bus × Syn × ClsCode) := (outs (step s)).map (fun o => (o.dout, o.syn, o.cls))

/-! ### WellFormed -/

/-- An ill-formed term: a length of 64 cannot be presented (30_encoding.md R54). -/
theorem test_wellFormed_refuses_length_64 : (Instr.enc8 64 0#39).wellFormed = false := by decide

theorem test_wellFormed_accepts_length_63 : (Instr.dec32 63 0#39).wellFormed = true := by decide

/-! ### Decoding: words written out field by field from 30_encoding.md R50 to R53 -/

theorem test_decode_enc8 :
    decode 0b0000_001000_000000000000000000000000000000010110010#49 = .ok (.enc8 8 0xB2#39) := by decide

theorem test_decode_enc16 :
    decode 0b0001_010000_000000000000000000000001011001011000101#49 = .ok (.enc16 16 0xB2C5#39) := by decide

theorem test_decode_enc32 :
    decode 0b0010_100000_000000011011110101011011011111011101111#49 = .ok (.enc32 32 0xDEADBEEF#39) := by decide

theorem test_decode_dec8 :
    decode 0b0100_001101_000000000000000000000000000101110010010#49 = .ok (.dec8 13 0x0B92#39) := by decide

theorem test_decode_dec16 :
    decode 0b0101_010110_000000000000000000101101010110010100100#49 = .ok (.dec16 22 0x16ACA4#39) := by decide

theorem test_decode_dec32 :
    decode 0b0110_100111_111011111010101101101110110111001110111#49 = .ok (.dec32 39 0x77D5B76E77#39) := by decide

/-- OP = 10 with LEN = 11: the reserved operation is looked at first (R53, vector X-3). -/
theorem test_decode_rejects_op_before_len : decode (reqOfPorts 0b1011#4 8#6 0#39) = .error .illegalOp := by decide

theorem test_decode_rejects_len_11 : decode (reqOfPorts 0b0111#4 13#6 0#39) = .error .unsupportedLen := by decide

/-- The match value of DEC.16's row of opcode_table.json, as a table word of 56 bits. -/
theorem test_decodeTableWord_dec16 : decodeTableWord 56 0x0A00000000000 = some (.dec16 0 0#39) := by decide

/-- REQ has 49 bits: a number with a higher bit is no request. -/
theorem test_decodeTableWord_too_wide : decodeTableWord 56 (2 ^ 49) = none := by decide

/-! ### The encoder (95_test_vectors.md §2.1) -/

/-- Vector E8-6, the golden codeword. -/
theorem test_enc8_golden : seen (ports 0#4 8#6 0xB2#39) = some (0x0B92#39, 0#6, 3#2) := by decide

/-- Vector E-U1: DIN bits above the payload are not read. -/
theorem test_enc8_unread_bits : seen (ports 0#4 8#6 0x7F000000B2#39) = some (0x0B92#39, 0#6, 3#2) := by decide

/-- Vector E16-6. -/
theorem test_enc16 : seen (ports 1#4 16#6 0xB2C5#39) = some (0x16ACA4#39, 0#6, 3#2) := by decide

/-- Vector E32-6. -/
theorem test_enc32 : seen (ports 2#4 32#6 0xDEADBEEF#39) = some (0x77D5B76E77#39, 0#6, 3#2) := by decide +kernel

/-- Vector X-8 and the other outputs of R153: length 7 is InvalidLength. -/
theorem test_enc8_length_7 :
    outs (step (ports 0#4 7#6 0x59#39)) = some ⟨1#3, 0#6, 0#39, 0#6, false, 3#2, false⟩ := by decide

/-- Vector X-14: a supported length other than m is InvalidCharacter. -/
theorem test_enc16_length_32 :
    outs (step (ports 1#4 32#6 0#39)) = some ⟨2#3, 0#6, 0#39, 0#6, false, 3#2, false⟩ := by decide

/-! ### The decoder (95_test_vectors.md §1.1, §2.3) -/

/-- Vector DEC8-06: position 6 is corrected. -/
theorem test_dec8_single :
    outs (step (ports 4#4 13#6 0x0BB2#39)) = some ⟨0#3, 13#6, 0x0B92#39, 6#6, true, 1#2, true⟩ := by decide

/-- Vector DEC8-T1: s = 14 > n flips nothing, and CVALID is 1. -/
theorem test_dec8_syndrome_beyond_n :
    outs (step (ports 4#4 13#6 0x0B18#39)) = some ⟨0#3, 13#6, 0x0B18#39, 14#6, true, 1#2, true⟩ := by decide

/-- Vector DEC16-5: a double error whose syndrome is n flips nothing. -/
theorem test_dec16_double :
    outs (step (ports 5#4 22#6 0x06ACA0#39)) = some ⟨0#3, 22#6, 0x06ACA0#39, 22#6, false, 2#2, false⟩ := by decide

/-- Vector DEC16-4: the overall-parity bit alone is DoubleUncorrectable. -/
theorem test_dec16_overall_bit :
    outs (step (ports 5#4 22#6 0x36ACA4#39)) = some ⟨0#3, 22#6, 0x36ACA4#39, 0#6, true, 2#2, false⟩ := by decide

/-- Vector DEC-A4: s = n with opc = 1 flips bit 38. -/
theorem test_dec32_syndrome_is_n :
    outs (step (ports 6#4 39#6 0x7FFFFFFFFF#39)) = some ⟨0#3, 39#6, 0x3FFFFFFFFF#39, 39#6, true, 1#2, true⟩ := by decide +kernel

/-- Vector DEC32-1. -/
theorem test_dec32_clean :
    outs (step (ports 6#4 39#6 0x77D5B76E77#39)) = some ⟨0#3, 39#6, 0x77D5B76E77#39, 0#6, false, 0#2, false⟩ := by decide +kernel

/-- Vector X-19: DEC of a payload-length operand. -/
theorem test_dec8_length_8 :
    outs (step (ports 4#4 8#6 0xB2#39)) = some ⟨3#3, 0#6, 0#39, 0#6, false, 3#2, false⟩ := by decide

/-! ### Reserved commands, the fetch, the layout and the caller -/

/-- Vector X-4. -/
theorem test_reserved_op :
    outs (step (ports 15#4 63#6 0x7FFFFFFFFF#39)) = some ⟨4#3, 0#6, 0#39, 0#6, false, 3#2, false⟩ := by decide

/-- Vector X-7 (90_conflicts.md C4). -/
theorem test_dec_unsupported_len :
    outs (step (ports 7#4 13#6 0x0B92#39)) = some ⟨1#3, 0#6, 0#39, 0#6, false, 3#2, false⟩ := by decide

/-- The first request of program P1, driven after power-up (95_test_vectors.md §3). -/
theorem test_withFetchWord_runs_request :
    seen (State.reset.withFetchWord 56 0x00400000000B2) = some (0x0B92#39, 0#6, 3#2) := by decide

/-- Vectors L-1 to L-4. -/
theorem test_isPowerOfTwo : [0, 1, 12, 32].map isPowerOfTwo = [false, true, false, true] := by decide

/-- Vectors L-6, L-9 and L-13. -/
theorem test_layout : parityCountOf 7 = .error .unsupportedLength ∧ coveredPositions 16 21 = [16, 17, 18, 19, 20, 21] ∧
    [0, 10, 11, 15].map (dataPos .len16) = [3, 15, 17, 21] := by decide

/-- CORRUPT of program P2, and a position outside the word (00_scope.md R12). -/
theorem test_corrupt : corrupt 22 0x16ACA4#39 [3, 21] = .ok 0x06ACA0#39 ∧
    corrupt 22 0x16ACA4#39 [23] = .error .positionOutOfRange := by decide

/-- The payload of the golden codeword (41_encoder.md R98). -/
theorem test_extractPayload : extractPayload .len8 0x0B92#39 = 0xB2#39 := by decide

/-- REQ of the first line of program P4 (95_test_vectors.md §3). -/
theorem test_lineRequest : lineRequest .enc .len8 0x59#39 (some 7#6) = 0x0038000000059#49 := by decide

/-- A line of program P1: `DEC.8 cw` with cw = 0x0BB2, and no length stated. -/
theorem test_execLine_dec8 : (execLine (.op .dec .len8 (.var 0) none) ⟨[(0, 0x0BB2#39)], State.reset⟩).toOption.bind
    (fun c => c.block.out) = some ⟨0#3, 13#6, 0x0B92#39, 6#6, true, 1#2, true⟩ := by decide

/-- DOUT cannot be copied before an evaluation (70_reset_and_hazards.md R172). -/
theorem test_execLine_copy_needs_observation :
    execLine (.copyDout 0) ⟨[], State.reset⟩ = .error .nothingObserved := by decide

/-! ### Witnesses: concrete states and operands that meet the hypotheses of the statements -/

/-- StepRunsDecodedInstruction, its three clauses. -/
theorem witness_step_clauses : decode (ports 4#4 13#6 1#39).request = .ok (.dec8 13 1#39) ∧
    decode (ports 8#4 13#6 1#39).request = .error .illegalOp ∧
    decode (ports 3#4 13#6 1#39).request = .error .unsupportedLen := by decide

/-- ObservationOnlyAfterEvaluation, ReevaluationChangesNothing and StepKeepsPortsLegal: a legal state whose step
answers a next state. -/
theorem witness_step_next : (ports 4#4 12#6 1#39).PortsLegal ∧ step (ports 4#4 12#6 1#39) =
    .next ⟨4#4, 12#6, 1#39, some ⟨3#3, 0#6, 0#39, 0#6, false, 3#2, false⟩⟩ :=
  ⟨fun _ h => absurd h (by simp [ports]), rfl⟩

/-- ErrorDrivesFixedOutputs and the second half of UnreadBitsHaveNoEffect, one input for each error code. -/
theorem witness_errors : firstFailedCheck 0#4 63#6 = 1#3 ∧ firstFailedCheck 3#4 8#6 = 1#3 ∧
    firstFailedCheck 2#4 16#6 = 2#3 ∧ firstFailedCheck 6#4 38#6 = 3#3 ∧ firstFailedCheck 8#4 8#6 = 4#3 := by decide

/-- DecodeInvertsEncode and PresentedInstructionRuns: the largest well-formed operands. -/
theorem witness_wellFormed : (Instr.dec32 63 0x7FFFFFFFFF#39).wellFormed = true := by decide

/-- EncodeInvertsDecode. -/
theorem witness_decodes : decode 0x0C00000000000#49 = .ok (.dec32 0 0#39) := by decide

/-- CommandMapDecodes, its last clause, at both ends of the range. -/
theorem witness_reserved_cmd : 8 ≤ (8#4 : Cmd).toNat ∧ 8 ≤ (15#4 : Cmd).toNat := by decide

/-- EncWrongLengthRaises: a length no operation takes, another supported one, and one no port carries. -/
theorem witness_enc_wrong_length : (7 : Nat) ≠ payloadBits .len8 ∧ (16 : Nat) ≠ payloadBits .len8 ∧
    (64 : Nat) ≠ payloadBits .len32 := by decide

/-- EncDrivesCodewordPorts, EncPlacesPayloadBits and EncParityBitsCoverData: positions and indices at the ends of their
ranges. -/
theorem witness_enc_ranges : 1 ≤ 13 ∧ 13 ≤ codeLen .len8 ∧ 31 < payloadBits .len32 ∧ 5 < parityCount .len32 := by decide

/-- CodewordsDifferInFourPositions. -/
theorem witness_distinct_payloads : lowBits (payloadBits .len16) 0x8000#39 ≠ lowBits (payloadBits .len16) 0#39 := by
  decide

/-- DecClassifiesAndCorrects, its four clauses: vectors S-1, S-6, DEC8-T3 (s = n) with DEC8-T1 (s > n), and S-4. -/
theorem witness_dec_clauses :
    ((decOutputs .len8 0x0B92#39).syn = 0#6 ∧ (decOutputs .len8 0x0B92#39).opc = false) ∧
    ((decOutputs .len8 0x0BA6#39).syn = 0#6 ∧ (decOutputs .len8 0x0BA6#39).opc = true) ∧
    ((decOutputs .len8 0x0B1B#39).syn = 13#6 ∧ (decOutputs .len8 0x0B1B#39).opc = true) ∧
    ((decOutputs .len8 0x0B18#39).syn = 14#6 ∧ (decOutputs .len8 0x0B18#39).opc = true) ∧
    ((decOutputs .len8 0x0AB2#39).syn = 15#6 ∧ (decOutputs .len8 0x0AB2#39).opc = false) := by decide

/-- DecWrongLengthRaises, on both sides of n. -/
theorem witness_dec_wrong_length : (12 : Nat) ≠ codeLen .len8 ∧ (14 : Nat) ≠ codeLen .len8 := by decide

/-- UnreadBitsHaveNoEffect: two operands that differ in the unread bits only (vector DEC-U1). -/
theorem witness_unread_bits : lowBits (requiredLen .dec .len8) 0x4000002B92#39 = lowBits (requiredLen .dec .len8) 0x0B92#39 ∧
    lowBits (requiredLen .enc .len8) 0x7F000000B2#39 = lowBits (requiredLen .enc .len8) 0xB2#39 := by decide

/-- SingleErrorsCorrected at both ends, and DoubleErrorsDetected with the overall-parity position. -/
theorem witness_error_positions : (1 ≤ 1 ∧ 1 ≤ dataTotal .len8) ∧ (1 ≤ 38 ∧ 38 ≤ dataTotal .len32) ∧
    (1 ≤ 1 ∧ 1 ≤ codeLen .len8 ∧ 1 ≤ 13 ∧ 13 ≤ codeLen .len8 ∧ 1 ≠ 13) := by decide

/-- SyndromeOfErrorPattern and CorruptFlipsExactly: positions without repetition in range, of two and three elements,
and one out of range at each end. -/
theorem witness_flips : ([1, 22] : List Nat).Nodup ∧ (∀ i ∈ [1, 22], 1 ≤ i ∧ i ≤ codeLen .len16) ∧
    ([2, 8, 16] : List Nat).Nodup ∧ (∀ i ∈ [2, 8, 16], 1 ≤ i ∧ i ≤ codeLen .len16) ∧
    (∃ i ∈ [0], i < 1 ∨ 22 < i) ∧ (∃ i ∈ [23], i < 1 ∨ 22 < i) := by decide

/-- OperationLinesRaiseNoLengthError, its clauses: a constant, a variable that is set, and one that is not. -/
theorem witness_line_values : valueOf [] (.const 0xB2#39) = .ok 0xB2#39 ∧
    valueOf [(1, 0#39), (0, 0x0BB2#39)] (.var 0) = .ok 0x0BB2#39 ∧
    valueOf [(1, 0#39)] (.var 0) = .error .unboundVariable := by decide

/-- ParityBitsIndependent and LayoutTablesAsListed. -/
theorem witness_unequal : (0 : Nat) ≠ 5 ∧ (7 : Nat) ≠ 8 ∧ (7 : Nat) ≠ 16 ∧ (7 : Nat) ≠ 32 := by decide

end Sys2Proof.Tests
end

section
/-! Corrupt in closed form: one equation for each of its two answers, and its result bit by bit (00_scope.md R12). -/

namespace Sys2Proof.Machine

/-- A bus bit of an XOR: the bit of one bus, inverted where the other bus holds 1. -/
theorem busAt_xor (v w : Bus) (i : Nat) : busAt (v ^^^ w) i = (busAt v i ^^ busAt w i) :=
  BitVec.getLsbD_xor

/-- Corrupt inverts by the mask of the positions when all of them lie in the codeword (00_scope.md R12). -/
theorem corrupt_eq_ok (n : Nat) (c : Bus) (positions : List Nat) (hin : ∀ i ∈ positions, 1 ≤ i ∧ i ≤ n) :
    corrupt n c positions = .ok (c ^^^ flipMask n positions) := by
  rcases corrupt_cases n c positions with ⟨-, hok⟩ | ⟨⟨i, hi, hout⟩, -⟩
  · exact hok
  · exact absurd (hin i hi) hout

/-- Corrupt fails when some position lies outside the codeword (00_scope.md R12). -/
theorem corrupt_eq_error (n : Nat) (c : Bus) (positions : List Nat) (hout : ∃ i ∈ positions, i < 1 ∨ n < i) :
    corrupt n c positions = .error .positionOutOfRange := by
  obtain ⟨i, hi, hi'⟩ := hout
  rcases corrupt_cases n c positions with ⟨hin, -⟩ | ⟨-, herr⟩
  · have := hin i hi
    omega
  · exact herr

/-- The mask of positions that all lie in the codeword is membership, on the whole bus: the bound n cuts nothing off. -/
theorem busAt_flipMask_of_inRange (n : Nat) (positions : List Nat) (hin : ∀ i ∈ positions, 1 ≤ i ∧ i ≤ n) (i : Nat)
    (h1 : 1 ≤ i) (h2 : i ≤ 39) : busAt (flipMask n positions) i = decide (i ∈ positions) := by
  rw [busAt_flipMask n positions i h1 h2]
  by_cases hi : i ∈ positions
  · simp [hi, (hin i hi).2]
  · simp [hi]

/-- Settles O37: the two answers of Corrupt, and the mask it inverts by read bit by bit. -/
theorem corruptFlipsExactly : Obligations.CorruptFlipsExactly := by
  intro n c positions _
  refine ⟨corrupt_eq_error n c positions, fun hin => ⟨_, corrupt_eq_ok n c positions hin, fun i h1 h2 => ?_⟩⟩
  rw [busAt_xor, busAt_flipMask_of_inRange n positions hin i h1 h2]

end Sys2Proof.Machine
end

section
/-! Evaluation in closed form: what an evaluation drives is computed from the request alone, and a step is that result
beside the inputs as they were (10_state.md R26). -/

namespace Sys2Proof.Machine

/-- What ENC drives: the error of the first length check that fails, else the codeword (41_encoder.md R90). -/
def encResult (m : PayloadLen) (dlen : Nat) (din : Bus) : Outputs :=
  (checkEncLen m dlen).elim (encOutputs m din) errorOutputs

/-- What DEC drives: the error of its length check, else the decoded word (43_classify_correct.md R135). -/
def decResult (m : PayloadLen) (dlen : Nat) (din : Bus) : Outputs :=
  (checkDecLen m dlen).elim (decOutputs m din) errorOutputs

/-- What an instruction drives. -/
def instrResult (i : Instr) : Outputs :=
  match i.op with
  | .enc => encResult i.len i.dlen i.din
  | .dec => decResult i.len i.dlen i.din

/-- What the evaluation of a request drives, a reserved command included (30_encoding.md R62). -/
def requestResult (r : Req) : Outputs :=
  match decode r with
  | .ok i => instrResult i
  | .error e => errorOutputs (rejectError e)

theorem execEnc_eq_complete (m : PayloadLen) (dlen : Nat) (din : Bus) (s : State) :
    execEnc m dlen din s = complete (encResult m dlen din) s := by
  unfold execEnc encResult
  cases checkEncLen m dlen with
  | none => rfl
  | some e => rfl

theorem execDec_eq_complete (m : PayloadLen) (dlen : Nat) (din : Bus) (s : State) :
    execDec m dlen din s = complete (decResult m dlen din) s := by
  unfold execDec decResult
  cases checkDecLen m dlen with
  | none => rfl
  | some e => rfl

/-- Every instruction completes with its result, whatever the state. -/
theorem exec_eq_complete (i : Instr) (s : State) : exec i s = complete (instrResult i) s := by
  cases i with
  | enc8 | enc16 | enc32 => exact execEnc_eq_complete _ _ _ s
  | dec8 | dec16 | dec32 => exact execDec_eq_complete _ _ _ s

/-- Every step completes with the result of the request its inputs present, whatever was observed before. -/
theorem step_eq_complete (s : State) : step s = complete (requestResult s.request) s := by
  unfold step requestResult
  cases decode s.request with
  | ok i => exact exec_eq_complete i s
  | error e => rfl

/-- Settles O3: the function is the result of the request word that the three input ports form. -/
theorem outputsAreFunctionOfInputs : Obligations.OutputsAreFunctionOfInputs :=
  ⟨fun cmd dlen din => requestResult (reqOfPorts cmd dlen din), step_eq_complete⟩

end Sys2Proof.Machine
end

section
/-! The result of an evaluation is settled: the request does not see the outputs, so evaluating it again drives the same
ones (20_memory.md R44). -/

namespace Sys2Proof.Machine

/-- The one state a step can answer: the inputs as they were, and the result of the request they present. -/
theorem eq_of_step_eq_next {s t : State} (h : step s = .next t) :
    t = { s with out := some (requestResult s.request) } :=
  (Host.Outcome.next.inj ((step_eq_complete s).symm.trans h)).symm

/-- A state whose outputs are the result of its own request is settled. -/
theorem settled_of_out_eq_requestResult {s : State} (h : s.out = some (requestResult s.request)) : s.Settled := by
  intro _
  rw [step_eq_complete, complete, ← h]

/-- Settles O4: a step leaves the request as it was and drives its result, which is what a second step drives. -/
theorem reevaluationChangesNothing : Obligations.ReevaluationChangesNothing := by
  intro s t hstep
  obtain rfl := eq_of_step_eq_next hstep
  refine ⟨settled_of_out_eq_requestResult ?_, Option.some_ne_none _⟩
  simp only [State.request_of_out]

end Sys2Proof.Machine
end

section
/-! The decoder by equations, one per answer, and the round trips between request words and instructions
(30_encoding.md R50 to R54). -/

namespace Sys2Proof

/-- A request whose OP and LEN fields name an operation and a payload length decodes to that instruction (R53). -/
theorem decode_eq_ok {r : Req} {op : Op} {m : PayloadLen} (hop : decodeOp (Req.op r) = some op)
    (hlen : decodeLen (Req.len r) = some m) : decode r = .ok (Instr.ofOp op m (Req.dlen r).toNat (Req.din r)) := by
  simp only [decode, hop, hlen]

/-- A reserved OP is rejected whatever LEN is (R51). -/
theorem decode_eq_illegalOp {r : Req} (hop : decodeOp (Req.op r) = none) : decode r = .error .illegalOp := by
  simp only [decode, hop]

/-- The reserved LEN is rejected under each operation (R52). -/
theorem decode_eq_unsupportedLen {r : Req} {op : Op} (hop : decodeOp (Req.op r) = some op)
    (hlen : decodeLen (Req.len r) = none) : decode r = .error .unsupportedLen := by
  simp only [decode, hop, hlen]

@[simp] theorem Req.op_reqOfPorts (cmd : Cmd) (dlen : LenWord) (din : Bus) :
    Req.op (reqOfPorts cmd dlen din) = cmd.extractLsb' 2 2 := by
  rw [Req.op_eq_cmd, Req.cmd_reqOfPorts]

@[simp] theorem Req.len_reqOfPorts (cmd : Cmd) (dlen : LenWord) (din : Bus) :
    Req.len (reqOfPorts cmd dlen din) = cmd.extractLsb' 0 2 := by
  rw [Req.len_eq_cmd, Req.cmd_reqOfPorts]

/-- The decoder on the three ports: the halves of CMD choose the instruction, DLEN and DIN are its operands (R60). -/
theorem decode_reqOfPorts {cmd : Cmd} {op : Op} {m : PayloadLen} (hop : decodeOp (cmd.extractLsb' 2 2) = some op)
    (hlen : decodeLen (cmd.extractLsb' 0 2) = some m) (dlen : LenWord) (din : Bus) :
    decode (reqOfPorts cmd dlen din) = .ok (Instr.ofOp op m dlen.toNat din) := by
  rw [decode_eq_ok (by rwa [Req.op_reqOfPorts]) (by rwa [Req.len_reqOfPorts]), Req.dlen_reqOfPorts, Req.din_reqOfPorts]

/-- OP is 10 or 11 from CMD = 8 on (R51, R53). -/
theorem decodeOp_eq_none_of_le : ∀ cmd : Cmd, 8 ≤ cmd.toNat → decodeOp (cmd.extractLsb' 2 2) = none := by decide

theorem Instr.wellFormed_iff (i : Instr) : i.wellFormed = true ↔ i.dlen < 64 := decide_eq_true_iff

/-- Decoding an encoded instruction gives it back with its stated length as DLEN carries it, modulo 64 (R54). -/
theorem decode_encode (i : Instr) : decode (encode i) = .ok (Instr.ofOp i.op i.len (i.dlen % 64) i.din) := by
  have hop : decodeOp (Req.op (encode i)) = some i.op := by rw [op_encode, decodeOp_encodeOp]
  have hlen : decodeLen (Req.len (encode i)) = some i.len := by rw [len_encode, decodeLen_encodeLen]
  rw [decode_eq_ok hop hlen, encode, Req.dlen_reqOfPorts, Req.din_reqOfPorts, BitVec.toNat_ofNat]

/-- The encoding of an instruction given by its fields. -/
theorem encode_ofOp (op : Op) (m : PayloadLen) (dlen : Nat) (din : Bus) :
    encode (Instr.ofOp op m dlen din) = reqOfPorts (encodeOp op ++ encodeLen m) (BitVec.ofNat 6 dlen) din := by
  rw [encode, encodeCmd, Instr.ofOp_op, Instr.ofOp_len, Instr.ofOp_dlen, Instr.ofOp_din]

/-- The OP and LEN tables, read backwards, give CMD of every request that decodes (R51, R52). -/
theorem encodeOp_append_encodeLen {r : Req} {op : Op} {m : PayloadLen} (hop : decodeOp (Req.op r) = some op)
    (hlen : decodeLen (Req.len r) = some m) : (encodeOp op ++ encodeLen m : Cmd) = Req.cmd r := by
  rw [encodeOp_of_decodeOp _ _ hop, encodeLen_of_decodeLen _ _ hlen, cmd_of_halves]

/-- Settles O10: OP, LEN and DIN come back whatever they are, and a well-formed length is below 64, so DLEN carries
it. -/
theorem decodeInvertsEncode : Obligations.DecodeInvertsEncode := by
  intro i hwf
  rw [decode_encode, Nat.mod_eq_of_lt (i.wellFormed_iff.mp hwf), Instr.ofOp_self]

/-- Settles O11: the tables read backwards give CMD again, and DLEN and DIN are the operands as they stand. -/
theorem encodeInvertsDecode : Obligations.EncodeInvertsDecode := by
  intro r i hdec
  rcases decode_cases r with ⟨op, m, hop, hlen, hok⟩ | ⟨-, herr⟩ | ⟨-, -, herr⟩
  · obtain rfl := Except.ok.inj (hok.symm.trans hdec)
    constructor
    · rw [encode_ofOp, encodeOp_append_encodeLen hop hlen, BitVec.ofNat_toNat, BitVec.setWidth_eq, reqOfPorts_fields]
    · rw [Instr.wellFormed_iff, Instr.ofOp_dlen]
      exact (Req.dlen r).isLt
  · exact nomatch herr.symm.trans hdec
  · exact nomatch herr.symm.trans hdec

/-- Settles O12: one equation of the decoder per value of CMD below 8, and the reserved OP for all others. -/
theorem commandMapDecodes : Obligations.CommandMapDecodes := by
  intro dlen din
  refine ⟨decode_reqOfPorts (op := .enc) (m := .len8) rfl rfl dlen din,
    decode_reqOfPorts (op := .enc) (m := .len16) rfl rfl dlen din,
    decode_reqOfPorts (op := .enc) (m := .len32) rfl rfl dlen din, decode_eq_unsupportedLen (op := .enc) ?_ ?_,
    decode_reqOfPorts (op := .dec) (m := .len8) rfl rfl dlen din,
    decode_reqOfPorts (op := .dec) (m := .len16) rfl rfl dlen din,
    decode_reqOfPorts (op := .dec) (m := .len32) rfl rfl dlen din,
    decode_eq_unsupportedLen (op := .dec) ?_ ?_, fun cmd hcmd => decode_eq_illegalOp ?_⟩
  · rw [Req.op_reqOfPorts]; rfl
  · rw [Req.len_reqOfPorts]; rfl
  · rw [Req.op_reqOfPorts]; rfl
  · rw [Req.len_reqOfPorts]; rfl
  · rw [Req.op_reqOfPorts, decodeOp_eq_none_of_le cmd hcmd]

end Sys2Proof
end

section
/-! A step by the answer of the decoder (30_encoding.md R53, R62), and the step that follows when the caller presents an
encoding (00_scope.md R10). -/

namespace Sys2Proof.Machine

theorem step_eq_exec {s : State} {i : Instr} (h : decode s.request = .ok i) : step s = exec i s := by
  simp only [step, h]

theorem step_eq_raiseError {s : State} {e : Reject} (h : decode s.request = .error e) :
    step s = raiseError (rejectError e) s := by
  simp only [step, h, execReserved]

/-- Settles O2: the three answers of the decoder, and for each what the step does with it. -/
theorem stepRunsDecodedInstruction : Obligations.StepRunsDecodedInstruction :=
  fun _ => ⟨fun _ => step_eq_exec, step_eq_raiseError, step_eq_raiseError⟩

/-- Settles O13: the request presented is the encoding, and it decodes to the instruction. -/
theorem presentedInstructionRuns : Obligations.PresentedInstructionRuns := by
  intro i s hwf
  apply step_eq_exec
  rw [State.present_request, decodeInvertsEncode i hwf]

end Sys2Proof.Machine
end

section
/-! The stated length of an operation (30_encoding.md R54): what a wrong one raises, and what ENC places when it is
right (R59). -/

namespace Sys2Proof.Machine

/-- Settles O16: the two errors of ENC's length checks. -/
theorem encWrongLengthRaises : Obligations.EncWrongLengthRaises := by
  intro m dlen din s hne
  rw [exec_ofOp_enc]
  rcases execEnc_cases m dlen din s with ⟨heq, -⟩ | ⟨-, hother, hexec⟩ | ⟨-, hnone, hexec⟩
  · exact absurd heq hne
  · rw [hexec, if_pos hother]; rfl
  · rw [hexec, if_neg hnone]; rfl

/-- Settles O26: the error of DEC's length check. -/
theorem decWrongLengthRaises : Obligations.DecWrongLengthRaises := by
  intro m dlen din s hne
  rw [exec_ofOp_dec]
  rcases execDec_cases m dlen din s with ⟨heq, -⟩ | ⟨-, hexec⟩
  · exact absurd heq hne
  · exact hexec

/-- The codeword that ENC gives for the payload on DIN (41_encoder.md R96). -/
theorem encGives_encodePayload (m : PayloadLen) (din : Bus) :
    EncGives m din (busOfCodeword (encodePayload m (payloadOfBus m din))) := by
  intro s
  rcases execEnc_cases m (payloadBits m) din s with ⟨-, hexec⟩ | ⟨hne, -⟩ | ⟨hne, -⟩
  · exact ⟨encOutputs m din, (exec_ofOp_enc ..).trans hexec, rfl, rfl, rfl⟩
  · exact absurd rfl hne
  · exact absurd rfl hne

/-- There are m data positions (40_parity_layout.md R76). -/
theorem length_dataPositions (m : PayloadLen) : (dataPositions m).length = payloadBits m := by
  cases m <;> decide

/-- A data position is no power of two (40_parity_layout.md R76). -/
theorem isPowerOfTwo_dataPos (m : PayloadLen) (k : Nat) (hk : k < payloadBits m) :
    isPowerOfTwo (dataPos m k) = false := by
  rw [← length_dataPositions m] at hk
  have hmem : dataPos m k ∈ dataPositions m := by
    rw [dataPos, List.getD_eq_getElem _ _ hk]
    exact List.getElem_mem hk
  simpa using (List.mem_filter.mp hmem).2

/-- The codeword holds at a data position what placement put there: steps 3 and 4 of the encoder write other positions
(41_encoder.md R92 to R94). -/
theorem bitAt_encodePayload_dataPos (m : PayloadLen) (p : BitSeq) (k : Nat) (hk : k < payloadBits m) :
    bitAt (encodePayload m p) (dataPos m k) = bitAt (dataArray m p) (dataPos m k) := by
  rw [bitAt_encodePayload_le m p _ (dataPos_bounds m k hk).2]
  apply bitAt_parityArray_other m _ (length_dataArray m p)
  intro l _ heq
  have hnot := isPowerOfTwo_dataPos m k hk
  rw [heq, isPowerOfTwo_two_pow] at hnot
  exact Bool.noConfusion hnot

/-- Settles O17: the bus bit is the codeword's bit at the data position, which is what placement put there. -/
theorem encPlacesPayloadBits : Obligations.EncPlacesPayloadBits := by
  intro m din
  refine ⟨_, encGives_encodePayload m din, fun k hk => ?_⟩
  obtain ⟨hpos, hle⟩ := dataPos_bounds m k hk
  have hbus : dataPos m k ≤ 39 := by
    have := codeLen_le m
    rw [codeLen] at this
    omega
  rw [busAt_busOfCodeword _ _ hpos hbus, bitAt_encodePayload_dataPos m _ k hk, bitAt_dataArray_dataPos m din k hk]

end Sys2Proof.Machine
end

section
/-! What an evaluation reads of DIN: the low bits of the required length when its checks pass, and nothing when a check
fails (30_encoding.md R57). -/

namespace Sys2Proof.Machine

/-- Buses with the same low bits have the same bits below that length. -/
theorem getLsbD_congr_of_lowBits {n : Nat} {v w : Bus} (h : lowBits n v = lowBits n w) {i : Nat} (hi : i < n) :
    v.getLsbD i = w.getLsbD i := by
  have hbit := congrArg (fun b => BitVec.getLsbD b i) h
  simpa only [getLsbD_lowBits, hi, decide_true, Bool.true_and] using hbit

/-- The payload is read from the low m bits of DIN (R55). -/
theorem payloadOfBus_congr {m : PayloadLen} {din din' : Bus}
    (h : lowBits (payloadBits m) din = lowBits (payloadBits m) din') : payloadOfBus m din = payloadOfBus m din' :=
  List.map_congr_left fun i hi =>
    have hlt : i < payloadBits m := List.mem_range.mp hi
    getLsbD_congr_of_lowBits h (by omega)

/-- The received word is read from the low n bits of DIN (R56). -/
theorem codewordOfBus_congr {m : PayloadLen} {din din' : Bus}
    (h : lowBits (codeLen m) din = lowBits (codeLen m) din') : codewordOfBus m din = codewordOfBus m din' :=
  List.map_congr_left fun _ hi => getLsbD_congr_of_lowBits h (List.mem_range.mp hi)

/-- ENC drives equal outputs on equal payload bits. -/
theorem encResult_congr {m : PayloadLen} {din din' : Bus}
    (h : lowBits (payloadBits m) din = lowBits (payloadBits m) din') (dlen : Nat) :
    encResult m dlen din = encResult m dlen din' := by
  simp only [encResult, encOutputs, payloadOfBus_congr h]

/-- DEC drives equal outputs on equal received bits. -/
theorem decResult_congr {m : PayloadLen} {din din' : Bus}
    (h : lowBits (codeLen m) din = lowBits (codeLen m) din') (dlen : Nat) :
    decResult m dlen din = decResult m dlen din' := by
  simp only [decResult, decOutputs, codewordOfBus_congr h]

@[simp] theorem instrResult_ofOp_enc (m : PayloadLen) (dlen : Nat) (din : Bus) :
    instrResult (Instr.ofOp .enc m dlen din) = encResult m dlen din := by cases m <;> rfl

@[simp] theorem instrResult_ofOp_dec (m : PayloadLen) (dlen : Nat) (din : Bus) :
    instrResult (Instr.ofOp .dec m dlen din) = decResult m dlen din := by cases m <;> rfl

/-- Equal bits up to the required length give equal outputs. -/
theorem instrResult_congr {op : Op} {m : PayloadLen} {din din' : Bus}
    (h : lowBits (requiredLen op m) din = lowBits (requiredLen op m) din') (dlen : Nat) :
    instrResult (Instr.ofOp op m dlen din) = instrResult (Instr.ofOp op m dlen din') := by
  cases op with
  | enc => rw [instrResult_ofOp_enc, instrResult_ofOp_enc, encResult_congr h]
  | dec => rw [instrResult_ofOp_dec, instrResult_ofOp_dec, decResult_congr h]

/-- A wrong stated length raises one error, whatever is on DIN (60_exceptions.md R152, checks 3a, 3b and 4a). -/
theorem instrResult_eq_errorOutputs {op : Op} {m : PayloadLen} {dlen : Nat} (hne : dlen ≠ requiredLen op m) :
    ∃ e, ∀ din, instrResult (Instr.ofOp op m dlen din) = errorOutputs e := by
  cases op with
  | enc =>
    rcases checkEncLen_cases m dlen with ⟨heq, -⟩ | ⟨-, -, hcheck⟩ | ⟨-, -, hcheck⟩
    · exact absurd heq hne
    · exact ⟨_, fun din => by rw [instrResult_ofOp_enc, encResult, hcheck, Option.elim_some]⟩
    · exact ⟨_, fun din => by rw [instrResult_ofOp_enc, encResult, hcheck, Option.elim_some]⟩
  | dec =>
    rcases checkDecLen_cases m dlen with ⟨heq, -⟩ | ⟨-, hcheck⟩
    · exact absurd heq hne
    · exact ⟨_, fun din => by rw [instrResult_ofOp_dec, decResult, hcheck, Option.elim_some]⟩

/-- What the evaluation of a request that decodes drives. -/
theorem requestResult_of_decode_ok {r : Req} {i : Instr} (h : decode r = .ok i) :
    requestResult r = instrResult i := by
  simp only [requestResult, h]

/-- What the evaluation of a reserved command drives (R62). -/
theorem requestResult_of_decode_error {r : Req} {e : Reject} (h : decode r = .error e) :
    requestResult r = errorOutputs (rejectError e) := by
  simp only [requestResult, h]

/-- CMD and DLEN alone decide whether an evaluation ends in an error, and in which: it does unless CMD names an
operation and DLEN is the length that operation requires (60_exceptions.md R152). -/
theorem requestResult_error_or_requiredLen (cmd : Cmd) (dlen : LenWord) :
    (∃ e, ∀ din, requestResult (reqOfPorts cmd dlen din) = errorOutputs e) ∨
    ∃ op m, cmd = encodeOp op ++ encodeLen m ∧ dlen.toNat = requiredLen op m := by
  cases hop : decodeOp (cmd.extractLsb' 2 2) with
  | none =>
    exact .inl ⟨_, fun din => requestResult_of_decode_error (decode_eq_illegalOp (by rwa [Req.op_reqOfPorts]))⟩
  | some op =>
    cases hlen : decodeLen (cmd.extractLsb' 0 2) with
    | none =>
      exact .inl ⟨_, fun din => requestResult_of_decode_error
        (decode_eq_unsupportedLen (by rwa [Req.op_reqOfPorts]) (by rwa [Req.len_reqOfPorts]))⟩
    | some m =>
      by_cases hreq : dlen.toNat = requiredLen op m
      · have hcmd := encodeOp_append_encodeLen (r := reqOfPorts cmd dlen 0#39) (by rwa [Req.op_reqOfPorts])
          (by rwa [Req.len_reqOfPorts])
        rw [Req.cmd_reqOfPorts] at hcmd
        exact .inr ⟨op, m, hcmd.symm, hreq⟩
      · obtain ⟨e, he⟩ := instrResult_eq_errorOutputs hreq
        exact .inl ⟨e, fun din => by rw [requestResult_of_decode_ok (decode_reqOfPorts hop hlen dlen din), he]⟩

/-- The length an operation requires fits DLEN (R54). -/
theorem toNat_ofNat_requiredLen (op : Op) (m : PayloadLen) :
    (BitVec.ofNat 6 (requiredLen op m)).toNat = requiredLen op m := by
  cases op <;> cases m <;> rfl

/-- No check fails when DLEN is the length the operation requires (60_exceptions.md R152). -/
theorem firstFailedCheck_requiredLen {op : Op} {m : PayloadLen} {dlen : LenWord}
    (h : dlen.toNat = requiredLen op m) : firstFailedCheck (encodeOp op ++ encodeLen m) dlen = 0#3 := by
  obtain rfl : dlen = BitVec.ofNat 6 (requiredLen op m) :=
    BitVec.eq_of_toNat_eq (h.trans (toNat_ofNat_requiredLen op m).symm)
  cases op <;> cases m <;> rfl

/-- A request one of whose checks fails drives one error, whatever is on DIN (R57). -/
theorem requestResult_of_firstFailedCheck {cmd : Cmd} {dlen : LenWord} (h : firstFailedCheck cmd dlen ≠ 0#3) :
    ∃ e, ∀ din, requestResult (reqOfPorts cmd dlen din) = errorOutputs e := by
  rcases requestResult_error_or_requiredLen cmd dlen with herr | ⟨op, m, rfl, hreq⟩
  · exact herr
  · exact absurd (firstFailedCheck_requiredLen hreq) h

/-- Settles O27: with its length right an operation reads the low bits only, and a request that raises an error has one
result for every DIN. -/
theorem unreadBitsHaveNoEffect : Obligations.UnreadBitsHaveNoEffect := by
  constructor
  · intro op m din din' s h
    rw [exec_eq_complete, exec_eq_complete, instrResult_congr h]
  · intro s din' h
    obtain ⟨e, he⟩ := requestResult_of_firstFailedCheck h
    refine ⟨errorOutputs e, ?_, ?_⟩
    · rw [step_eq_complete, State.request, he, complete]
    · rw [step_eq_complete, State.request, he, complete]

end Sys2Proof.Machine
end

section
/-! An operation line of the caller without `dlen=` (30_encoding.md R63, R64): it presents the length the operation
requires. -/

namespace Sys2Proof.Machine

/-- An instruction with the required length drives no error (60_exceptions.md R150). -/
theorem err_instrResult_requiredLen (op : Op) (m : PayloadLen) (din : Bus) :
    (instrResult (Instr.ofOp op m (requiredLen op m) din)).err = 0#3 := by
  cases op with
  | enc =>
    rcases checkEncLen_cases m (payloadBits m) with ⟨-, hcheck⟩ | ⟨hne, -⟩ | ⟨hne, -⟩
    · rw [instrResult_ofOp_enc, requiredLen, encResult, hcheck]; rfl
    · exact absurd rfl hne
    · exact absurd rfl hne
  | dec =>
    rcases checkDecLen_cases m (codeLen m) with ⟨-, hcheck⟩ | ⟨hne, -⟩
    · rw [instrResult_ofOp_dec, requiredLen, decResult, hcheck]; rfl
    · exact absurd rfl hne

/-- The request of a line without `dlen=` evaluates as its operation with the required length. -/
theorem requestResult_lineRequest (op : Op) (m : PayloadLen) (v : Bus) :
    requestResult (lineRequest op m v none) = instrResult (Instr.ofOp op m (requiredLen op m) v) := by
  have hlen : (lineLen op m none).toNat = requiredLen op m := toNat_ofNat_requiredLen op m
  have hwf : (Instr.ofOp op m (lineLen op m none).toNat v).wellFormed = true := by
    rw [Instr.wellFormed_iff, Instr.ofOp_dlen]
    exact (lineLen op m none).isLt
  rw [lineRequest_eq_encode, requestResult_of_decode_ok (decodeInvertsEncode _ hwf), hlen]

/-- A request line always completes: the caller's variables stay, and the block holds the request and its result. -/
theorem evaluate_eq_ok (r : Req) (c : Caller) :
    evaluate r c = .ok { c with block := { c.block.present r with out := some (requestResult r) } } := by
  rw [evaluate, step_eq_complete, State.present_request, complete]

/-- An operation line whose value is set evaluates its request (R63). -/
theorem execLine_op_of_ok (op : Op) (m : PayloadLen) (dlen : Option LenWord) {value : CallerValue} {c : Caller}
    {v : Bus} (h : valueOf c.vars value = .ok v) :
    execLine (.op op m value dlen) c = evaluate (lineRequest op m v dlen) c := by
  simp only [execLine, h]

/-- An operation line whose value is not set ends with the caller's error (log entry 10). -/
theorem execLine_op_of_error (op : Op) (m : PayloadLen) (dlen : Option LenWord) {value : CallerValue} {c : Caller}
    {e : CallerError} (h : valueOf c.vars value = .error e) : execLine (.op op m value dlen) c = .error e := by
  simp only [execLine, h]

/-- Settles O38: the line presents the length its operation requires, so no length check fails. -/
theorem operationLinesRaiseNoLengthError : Obligations.OperationLinesRaiseNoLengthError := by
  intro op m value c
  refine ⟨fun v hv => ⟨_, _, (execLine_op_of_ok op m none hv).trans (evaluate_eq_ok _ c), rfl, rfl, ?_, ?_⟩,
    fun e he => execLine_op_of_error op m none he⟩
  · rw [requestResult_lineRequest, err_instrResult_requiredLen]
  · exact Req.din_reqOfPorts _ _ v

end Sys2Proof.Machine
end

section
/-! The parity layout: which numbers are powers of two, what the covered sets hold, and how the positions of a codeword
fall into their classes (40_parity_layout.md R70 to R78). -/

namespace Sys2Proof.Machine

theorem isPowerOfTwo_iff (x : Nat) : isPowerOfTwo x = true ↔ 0 < x ∧ x &&& (x - 1) = 0 := by
  simp [isPowerOfTwo]

/-- A number that shares no bit with its predecessor is a power of two: strictly between two powers of two the
predecessor keeps the top bit. -/
theorem eq_two_pow_log2_of_and_pred {x : Nat} (hpos : 0 < x) (hand : x &&& (x - 1) = 0) : x = 2 ^ x.log2 := by
  have hle : 2 ^ x.log2 ≤ x := Nat.log2_self_le hpos.ne'
  have hlt : x < 2 ^ (x.log2 + 1) := Nat.lt_log2_self
  by_contra hne
  have htop : x.testBit x.log2 = true := Nat.testBit_of_two_pow_le_and_two_pow_add_one_gt hle hlt
  have htop' : (x - 1).testBit x.log2 = true :=
    Nat.testBit_of_two_pow_le_and_two_pow_add_one_gt (by omega) (by omega)
  have hbit := Nat.testBit_and x (x - 1) x.log2
  rw [hand, htop, htop', Nat.zero_testBit] at hbit
  exact Bool.noConfusion hbit

/-- Settles O33: the set bit of a number that shares no bit with its predecessor is its top bit. -/
theorem powerOfTwoHasOneSetBit : Obligations.PowerOfTwoHasOneSetBit := by
  intro x
  constructor
  · intro h
    obtain ⟨hpos, hand⟩ := (isPowerOfTwo_iff x).mp h
    exact ⟨x.log2, eq_two_pow_log2_of_and_pred hpos hand⟩
  · rintro ⟨k, rfl⟩
    exact isPowerOfTwo_two_pow k

theorem pairwise_lt_positionsUpTo (k : Nat) : (positionsUpTo k).Pairwise (· < ·) := List.pairwise_lt_range'

/-- Settles O34: the covered set is a filter of the positions, which stand in increasing order. -/
theorem coveredPositionsExactly : Obligations.CoveredPositionsExactly := fun p total =>
  ⟨fun j => (mem_coveredPositions p total j).trans and_assoc, (pairwise_lt_positionsUpTo total).filter _⟩

/-- Settles O35: the covered set of 2^k holds positions with bit k, and 2^l has bit l alone. -/
theorem parityBitsIndependent : Obligations.ParityBitsIndependent := by
  intro k l total hne hmem
  obtain ⟨-, hshare⟩ := (mem_coveredPositions _ _ _).mp hmem
  have hbit : (2 ^ l).testBit k = true := (and_two_pow_ne_zero _ _).mp hshare
  rw [Nat.testBit_two_pow_of_ne hne.symm] at hbit
  exact Bool.noConfusion hbit

theorem positionsUpTo_succ (k : Nat) : positionsUpTo (k + 1) = positionsUpTo k ++ [k + 1] := by
  rw [positionsUpTo, positionsUpTo, List.range'_concat, Nat.one_mul, Nat.add_comm 1 k]

/-- The last position of a codeword is its overall-parity position (R73). -/
theorem positionClass_codeLen (m : PayloadLen) : positionClass m (codeLen m) = .overallParity := by
  simp [positionClass, codeLen]

/-- Up to dataTotal a position is a parity position or a data position, as it is a power of two or not (R74). -/
theorem positionClass_of_le {m : PayloadLen} {i : Nat} (h : i ≤ dataTotal m) :
    positionClass m i = bif isPowerOfTwo i then .parity else .data := by
  have hne : i ≠ codeLen m := by rw [codeLen]; omega
  simp [positionClass, h, hne, Bool.cond_eq_ite]

/-- The positions of a class: those up to dataTotal by whether they are powers of two, then the last one by its own
class. -/
theorem filter_positionClass (m : PayloadLen) (cls : PositionClass) :
    (positionsUpTo (codeLen m)).filter (fun i => positionClass m i == cls) =
      (positionsUpTo (dataTotal m)).filter (fun i => (bif isPowerOfTwo i then .parity else .data) == cls) ++
        bif .overallParity == cls then [codeLen m] else [] := by
  rw [codeLen, positionsUpTo_succ, List.filter_append, ← codeLen, List.filter_singleton, positionClass_codeLen]
  congr 1
  exact List.filter_congr fun i hi => by rw [positionClass_of_le ((mem_positionsUpTo _ _).mp hi).2]

theorem filter_positionClass_parity (m : PayloadLen) :
    (positionsUpTo (codeLen m)).filter (fun i => positionClass m i == .parity) =
      (positionsUpTo (dataTotal m)).filter isPowerOfTwo := by
  rw [filter_positionClass]
  simp [Bool.apply_cond (· == PositionClass.parity), beq_eq_decide]

theorem filter_positionClass_data (m : PayloadLen) :
    (positionsUpTo (codeLen m)).filter (fun i => positionClass m i == .data) = dataPositions m := by
  rw [filter_positionClass]
  simp [Bool.apply_cond (· == PositionClass.data), beq_eq_decide, dataPositions]

theorem filter_positionClass_overallParity (m : PayloadLen) :
    (positionsUpTo (codeLen m)).filter (fun i => positionClass m i == .overallParity) = [codeLen m] := by
  simp [filter_positionClass, Bool.apply_cond (· == PositionClass.overallParity)]

/-- The powers of two up to dataTotal are the parity positions (R73). -/
theorem filter_isPowerOfTwo_positionsUpTo (m : PayloadLen) :
    (positionsUpTo (dataTotal m)).filter isPowerOfTwo = parityPositions m := by cases m <;> decide

theorem isPowerOfTwo_codeLen (m : PayloadLen) : isPowerOfTwo (codeLen m) = false := by cases m <;> decide

/-- Settles O36: the last position has its own class, and below it the powers of two are parity, the others data. -/
theorem positionClassesCounted : Obligations.PositionClassesCounted := fun m =>
  ⟨(filter_positionClass_parity m).trans (filter_isPowerOfTwo_positionsUpTo m), filter_positionClass_overallParity m,
    filter_positionClass_data m, length_dataPositions m, isPowerOfTwo_codeLen m⟩

/-- The three supported lengths are the only ones (R70). -/
theorem lenOfBits_eq_error {m : Nat} (h8 : m ≠ 8) (h16 : m ≠ 16) (h32 : m ≠ 32) :
    lenOfBits m = .error .unsupportedLength := by
  unfold lenOfBits
  split
  · exact absurd rfl h8
  · exact absurd rfl h16
  · exact absurd rfl h32
  · rfl

/-- parityCount fails on every other length (R70). -/
theorem parityCountOf_eq_error {m : Nat} (h8 : m ≠ 8) (h16 : m ≠ 16) (h32 : m ≠ 32) :
    parityCountOf m = .error .unsupportedLength := by
  rw [parityCountOf, lenOfBits_eq_error h8 h16 h32]
  rfl

/-- Settles O39: every row of the tables is computed; the failure of parityCount is for all other lengths. -/
theorem layoutTablesAsListed : Obligations.LayoutTablesAsListed :=
  ⟨⟨rfl, rfl, rfl, fun _ => parityCountOf_eq_error⟩, by decide, ⟨rfl, rfl, rfl, fun _ => rfl⟩, by decide, by decide,
    by decide, by decide, by decide⟩

end Sys2Proof.Machine
end

section
/-! The output ports of ENC on success (41_encoder.md R96), and the codeword it drives on DOUT. -/

namespace Sys2Proof.Machine

/-- ENC with its own length passes its length checks, which compute, and drives the codeword's ports (R96). -/
theorem exec_enc_payloadBits (m : PayloadLen) (din : Bus) (s : State) :
    exec (Instr.ofOp .enc m (payloadBits m) din) s = .next { s with out := some (encOutputs m din) } := by
  cases m <;> rfl

/-- The bus of a sequence holds 0 above it (30_encoding.md R58). -/
theorem getLsbD_busOfCodeword_of_length_le {c : BitSeq} {i : Nat} (h : c.length ≤ i) :
    (busOfCodeword c).getLsbD i = false := by
  by_cases hi : i < 39
  · rw [getLsbD_busOfCodeword c i hi, List.getD_eq_default _ _ h]
  · exact BitVec.getLsbD_of_ge _ i (Nat.not_lt.mp hi)

/-- DOUT of ENC, position by position (R96). -/
theorem busAt_dout_encOutputs (m : PayloadLen) (din : Bus) (i : Nat) (h1 : 1 ≤ i) (hn : i ≤ codeLen m) :
    busAt (encOutputs m din).dout i = bitAt (encodePayload m (payloadOfBus m din)) i :=
  busAt_busOfCodeword _ i h1 (hn.trans (codeLen_le m))

/-- DOUT of ENC is 0 from bit n on (R96). -/
theorem getLsbD_dout_encOutputs (m : PayloadLen) (din : Bus) (j : Nat) (hj : codeLen m ≤ j) :
    (encOutputs m din).dout.getLsbD j = false :=
  getLsbD_busOfCodeword_of_length_le ((length_encodePayload m _).trans_le hj)

/-- Settles O15: the ports of the three lengths are those of `encOutputs`, whose DOUT is read bit by bit. -/
theorem encDrivesCodewordPorts : Obligations.EncDrivesCodewordPorts := fun din s =>
  ⟨⟨_, exec_enc_payloadBits .len8 din s, rfl, rfl, busAt_dout_encOutputs .len8 din,
      getLsbD_dout_encOutputs .len8 din, rfl, rfl, rfl, rfl⟩,
    ⟨_, exec_enc_payloadBits .len16 din s, rfl, rfl, busAt_dout_encOutputs .len16 din,
      getLsbD_dout_encOutputs .len16 din, rfl, rfl, rfl, rfl⟩,
    ⟨_, exec_enc_payloadBits .len32 din s, rfl, rfl, busAt_dout_encOutputs .len32 din, rfl, rfl, rfl, rfl⟩⟩

end Sys2Proof.Machine
end

section
/-! XOR over a list of positions: split by a filter, and as the parity of a count (00_scope.md R8). -/

namespace Sys2Proof.Machine

theorem xorBus_cons (v : Bus) (j : Nat) (l : List Nat) : xorBus v (j :: l) = (busAt v j ^^ xorBus v l) := rfl

theorem xorBus_singleton (v : Bus) (j : Nat) : xorBus v [j] = busAt v j := Bool.xor_false _

/-- XOR over positions that all hold 0 is 0. -/
theorem xorBus_eq_false {v : Bus} {l : List Nat} (h : ∀ j ∈ l, busAt v j = false) : xorBus v l = false := by
  induction l with
  | nil => rfl
  | cons j l ih =>
    rw [xorBus_cons, h j List.mem_cons_self, ih fun i hi => h i (List.mem_cons_of_mem j hi), Bool.xor_false]

/-- The XOR over the positions that pass a test and the XOR over those that fail it make the XOR over all. -/
theorem xorBus_filter_xor_filter_not (v : Bus) (q : Nat → Bool) (l : List Nat) :
    (xorBus v (l.filter q) ^^ xorBus v (l.filter fun j => !q j)) = xorBus v l := by
  induction l with
  | nil => rfl
  | cons j l ih =>
    cases hq : q j with
    | true => simp [hq, xorBus_cons, ← ih]
    | false => simp [hq, xorBus_cons, ← ih, Bool.xor_left_comm]

/-- XOR over positions is the parity of the number of those that hold 1. -/
theorem xorBus_eq_decide_countP (v : Bus) (l : List Nat) :
    xorBus v l = decide (l.countP (busAt v) % 2 = 1) := by
  induction l with
  | nil => rfl
  | cons j l ih =>
    rw [xorBus_cons, ih, List.countP_cons]
    cases busAt v j with
    | false => simp
    | true => simp [Nat.succ_mod_two_eq_one_iff, ← decide_not]

/-- XOR over the positions of a sequence is that over its bus. -/
theorem xorBus_busOfCodeword (c : BitSeq) {l : List Nat} (h : ∀ j ∈ l, 1 ≤ j ∧ j ≤ 39) :
    xorBus (busOfCodeword c) l = xorAt c l := by
  induction l with
  | nil => rfl
  | cons j l ih =>
    obtain ⟨h1, h39⟩ := h j List.mem_cons_self
    rw [xorBus_cons, busAt_busOfCodeword c j h1 h39, ih fun i hi => h i (List.mem_cons_of_mem j hi)]
    rfl

/-- Positions that hold 0 can be left out of an XOR over a sequence. -/
theorem xorAt_filter {c : BitSeq} {q : Nat → Bool} {l : List Nat}
    (h : ∀ j ∈ l, q j = false → bitAt c j = false) : xorAt c (l.filter q) = xorAt c l := by
  induction l with
  | nil => rfl
  | cons j l ih =>
    have ih := ih fun i hi => h i (List.mem_cons_of_mem j hi)
    cases hq : q j with
    | true =>
      rw [List.filter_cons_of_pos hq]
      exact congrArg (bitAt c j ^^ ·) ih
    | false =>
      rw [List.filter_cons_of_neg (by simp [hq]), ih]
      simp [xorAt, h j List.mem_cons_self hq]

end Sys2Proof.Machine
end

section
/-! The codeword of ENC on the bus: what it holds at each class of positions, its zero checks, and its payload
(41_encoder.md R92 to R98). -/

namespace Sys2Proof.Machine

/-- The codeword of the payload on DIN, as ENC drives it on DOUT (R96). -/
def encBus (m : PayloadLen) (din : Bus) : Bus := busOfCodeword (encodePayload m (payloadOfBus m din))

/-- What ENC gives is that codeword and nothing else. -/
theorem encGives_iff (m : PayloadLen) (din c : Bus) : EncGives m din c ↔ c = encBus m din := by
  constructor
  · intro h
    obtain ⟨o, hexec, -, -, rfl⟩ := h .reset
    rw [exec_enc_payloadBits] at hexec
    cases hexec
    rfl
  · rintro rfl
    exact encGives_encodePayload m din

theorem encGives_encBus (m : PayloadLen) (din : Bus) : EncGives m din (encBus m din) :=
  encGives_encodePayload m din

/-- The data positions hold the payload (R92). -/
theorem busAt_encBus_dataPos (m : PayloadLen) (din : Bus) {k : Nat} (hk : k < payloadBits m) :
    busAt (encBus m din) (dataPos m k) = din.getLsbD k := by
  obtain ⟨c, hc, hplace⟩ := encPlacesPayloadBits m din
  obtain rfl := (encGives_iff m din c).mp hc
  exact hplace k hk

/-- XOR over positions of the codeword, on the bus and on the sequence. -/
theorem xorBus_encBus (m : PayloadLen) (din : Bus) {l : List Nat} (h : ∀ j ∈ l, 1 ≤ j ∧ j ≤ codeLen m) :
    xorBus (encBus m din) l = xorAt (encodePayload m (payloadOfBus m din)) l :=
  xorBus_busOfCodeword _ fun j hj => ⟨(h j hj).1, (h j hj).2.trans (codeLen_le m)⟩

/-- A power of two up to dataTotal is a parity position (40_parity_layout.md R73). -/
theorem exists_eq_two_pow_of_isPowerOfTwo {m : PayloadLen} {j : Nat} (h1 : 1 ≤ j) (hT : j ≤ dataTotal m)
    (hpow : isPowerOfTwo j = true) : ∃ k, k < parityCount m ∧ j = 2 ^ k := by
  have hmem : j ∈ parityPositions m := by
    rw [← filter_isPowerOfTwo_positionsUpTo]
    exact List.mem_filter.mpr ⟨(mem_positionsUpTo _ _).mpr ⟨h1, hT⟩, hpow⟩
  obtain ⟨k, hk, rfl⟩ := List.mem_map.mp hmem
  exact ⟨k, List.mem_range.mp hk, rfl⟩

/-- A position up to dataTotal that is no power of two is a data position (40_parity_layout.md R76). -/
theorem exists_eq_dataPos {m : PayloadLen} {j : Nat} (h1 : 1 ≤ j) (hT : j ≤ dataTotal m)
    (hpow : isPowerOfTwo j = false) : ∃ k, k < payloadBits m ∧ j = dataPos m k := by
  have hmem : j ∈ dataPositions m :=
    List.mem_filter.mpr ⟨(mem_positionsUpTo _ _).mpr ⟨h1, hT⟩, by rw [hpow]; rfl⟩
  obtain ⟨k, hk, rfl⟩ := List.getElem_of_mem hmem
  exact ⟨k, length_dataPositions m ▸ hk, (List.getD_eq_getElem _ _ hk).symm⟩

/-- Where it is no power of two, the codeword up to dataTotal is the placed payload: steps 3 and 4 write other
positions. -/
theorem bitAt_encodePayload_of_not_isPowerOfTwo {m : PayloadLen} (p : BitSeq) {j : Nat} (hT : j ≤ dataTotal m)
    (hpow : isPowerOfTwo j = false) : bitAt (encodePayload m p) j = bitAt (dataArray m p) j := by
  rw [bitAt_encodePayload_le m p j hT]
  apply bitAt_parityArray_other m _ (length_dataArray m p)
  rintro k - rfl
  exact Bool.noConfusion ((isPowerOfTwo_two_pow k).symm.trans hpow)

/-- The parity positions of the working array are 0 while the parity bits are computed, so only the data positions
count (R93, its second form). -/
theorem xorAt_dataArray_filter_data (m : PayloadLen) (p : BitSeq) (q : Nat) :
    xorAt (dataArray m p) ((coveredPositions q (dataTotal m)).filter fun j => !isPowerOfTwo j) =
      xorAt (dataArray m p) (coveredPositions q (dataTotal m)) := by
  apply xorAt_filter
  intro j hj hpow
  obtain ⟨h1, hT⟩ := ((mem_coveredPositions _ _ _).mp hj).1
  obtain ⟨k, hk, rfl⟩ := exists_eq_two_pow_of_isPowerOfTwo h1 hT (by simpa using hpow)
  exact bitAt_dataArray_parity m p k hk

/-- A parity bit of the codeword is the XOR of the data positions it covers (R93). -/
theorem busAt_encBus_parity (m : PayloadLen) (din : Bus) {k : Nat} (hk : k < parityCount m) :
    busAt (encBus m din) (2 ^ k) =
      xorBus (encBus m din) ((coveredPositions (2 ^ k) (dataTotal m)).filter fun j => !isPowerOfTwo j) := by
  have hT : 2 ^ k ≤ dataTotal m := parityPosition_le m k hk
  have hn : 2 ^ k ≤ 39 := (hT.trans (Nat.le_succ _)).trans (codeLen_le m)
  rw [xorBus_encBus m din fun j hj => coveredPositions_range m _ j (List.mem_of_mem_filter hj), encBus,
    busAt_busOfCodeword _ _ Nat.one_le_two_pow hn]
  generalize payloadOfBus m din = p
  calc bitAt (encodePayload m p) (2 ^ k)
      = xorAt (dataArray m p) (coveredPositions (2 ^ k) (dataTotal m)) := by
        rw [bitAt_encodePayload_le m p _ hT, bitAt_parityArray_parity m _ (length_dataArray m p) k hk]
    _ = xorAt (dataArray m p) ((coveredPositions (2 ^ k) (dataTotal m)).filter fun j => !isPowerOfTwo j) :=
        (xorAt_dataArray_filter_data m p _).symm
    _ = xorAt (encodePayload m p) ((coveredPositions (2 ^ k) (dataTotal m)).filter fun j => !isPowerOfTwo j) := by
        apply xorAt_congr
        intro j hj
        obtain ⟨hcov, hpow⟩ := List.mem_filter.mp hj
        exact (bitAt_encodePayload_of_not_isPowerOfTwo p ((mem_coveredPositions _ _ _).mp hcov).1.2
          (by simpa using hpow)).symm

/-- Settles O18: the codeword that ENC drives, read at a parity position. -/
theorem encParityBitsCoverData : Obligations.EncParityBitsCoverData := fun m din =>
  ⟨_, encGives_encBus m din, fun _ hk => busAt_encBus_parity m din hk⟩

/-- The last bit of the codeword is the XOR of all before it (R94). -/
theorem busAt_encBus_codeLen (m : PayloadLen) (din : Bus) :
    busAt (encBus m din) (codeLen m) = xorBus (encBus m din) (positionsUpTo (dataTotal m)) := by
  have hrange : ∀ j ∈ positionsUpTo (dataTotal m), 1 ≤ j ∧ j ≤ codeLen m := fun j hj =>
    have hj := (mem_positionsUpTo _ _).mp hj
    ⟨hj.1, hj.2.trans (Nat.le_succ _)⟩
  rw [xorBus_encBus m din hrange, encBus, busAt_busOfCodeword _ (codeLen m) (Nat.le_add_left 1 _) (codeLen_le m),
    bitAt_encodePayload_last]

/-- Settles O19: the codeword that ENC drives, read at its last position. -/
theorem encOverallBitIsParity : Obligations.EncOverallBitIsParity := fun m din =>
  ⟨_, encGives_encBus m din, busAt_encBus_codeLen m din⟩

/-- The one power of two in a covered set is the parity position itself (40_parity_layout.md R77, R78). -/
theorem filter_isPowerOfTwo_coveredPositions (m : PayloadLen) :
    ∀ k < parityCount m, (coveredPositions (2 ^ k) (dataTotal m)).filter isPowerOfTwo = [2 ^ k] := by
  cases m <;> decide

/-- A check is the parity bit beside the XOR of the data positions it covers. -/
theorem xorBus_coveredPositions {m : PayloadLen} (v : Bus) {k : Nat} (hk : k < parityCount m) :
    xorBus v (coveredPositions (2 ^ k) (dataTotal m)) =
      (busAt v (2 ^ k) ^^ xorBus v ((coveredPositions (2 ^ k) (dataTotal m)).filter fun j => !isPowerOfTwo j)) := by
  rw [← xorBus_filter_xor_filter_not v isPowerOfTwo, filter_isPowerOfTwo_coveredPositions m k hk, xorBus_singleton]

/-- The overall XOR is that of the positions up to dataTotal beside the last bit. -/
theorem xorBus_positionsUpTo_codeLen (m : PayloadLen) (v : Bus) :
    xorBus v (positionsUpTo (codeLen m)) = (xorBus v (positionsUpTo (dataTotal m)) ^^ busAt v (codeLen m)) := by
  rw [codeLen, positionsUpTo_succ, xorBus_append, xorBus_singleton]

/-- What the decoder relies on in a codeword of payload length m (R97): nothing stands above its n bits, each check is
0 and the overall XOR is 0. -/
structure IsCodeword (m : PayloadLen) (c : Bus) : Prop where
  low : lowBits (codeLen m) c = c
  check : ∀ k < parityCount m, xorBus c (coveredPositions (2 ^ k) (dataTotal m)) = false
  overall : xorBus c (positionsUpTo (codeLen m)) = false

/-- ENC drives codewords: each parity bit cancels the XOR it was set to (R97). -/
theorem isCodeword_encBus (m : PayloadLen) (din : Bus) : IsCodeword m (encBus m din) where
  low := lowBits_busOfCodeword _ _ (length_encodePayload m _).le
  check k hk := by rw [xorBus_coveredPositions _ hk, busAt_encBus_parity m din hk, Bool.xor_self]
  overall := by rw [xorBus_positionsUpTo_codeLen, busAt_encBus_codeLen, Bool.xor_self]

/-- Settles O20: what ENC drives is a codeword. -/
theorem codewordChecksAreZero : Obligations.CodewordChecksAreZero := fun m din =>
  ⟨_, encGives_encBus m din, (isCodeword_encBus m din).check, (isCodeword_encBus m din).overall⟩

/-- The caller reads payload bit k at the k-th data position, and 0 from bit m on (R98). -/
theorem getLsbD_extractPayload (m : PayloadLen) (c : Bus) {k : Nat} (hk : k < 39) :
    (extractPayload m c).getLsbD k = (decide (k < payloadBits m) && busAt c (dataPos m k)) := by
  rw [extractPayload, getLsbD_busOfCodeword _ k hk, List.getD_eq_getElem?_getD]
  by_cases hm : k < payloadBits m
  · simp [hm, busAt]
  · simp [hm]

/-- The caller's mapping reads the payload back (R98). -/
theorem extractPayload_encBus (m : PayloadLen) (din : Bus) :
    extractPayload m (encBus m din) = lowBits (payloadBits m) din := by
  apply BitVec.eq_of_getLsbD_eq
  intro k hk
  rw [getLsbD_extractPayload m _ hk, getLsbD_lowBits]
  by_cases hm : k < payloadBits m
  · rw [busAt_encBus_dataPos m din hm]
  · simp [hm]

/-- Settles O21: the caller's mapping on the codeword that ENC drives. -/
theorem payloadRecoverable : Obligations.PayloadRecoverable := fun m din =>
  ⟨_, encGives_encBus m din, extractPayload_encBus m din⟩

end Sys2Proof.Machine
end

section
/-! The codewords form a linear code: they are closed under XOR, and the payload bits of one determine it
(41_encoder.md R100). -/

namespace Sys2Proof.Machine

theorem IsCodeword.xor {m : PayloadLen} {c d : Bus} (hc : IsCodeword m c) (hd : IsCodeword m d) :
    IsCodeword m (c ^^^ d) where
  low := by rw [lowBits_xor, hc.low, hd.low]
  check k hk := by rw [xorBus_xor, hc.check k hk, hd.check k hk, Bool.xor_self]
  overall := by rw [xorBus_xor, hc.overall, hd.overall, Bool.xor_self]

/-- A codeword whose data positions are 0 is 0 up to dataTotal: each check leaves its parity bit alone. -/
theorem IsCodeword.busAt_eq_false {m : PayloadLen} {c : Bus} (hc : IsCodeword m c)
    (hdata : ∀ k < payloadBits m, busAt c (dataPos m k) = false) {j : Nat} (h1 : 1 ≤ j) (hT : j ≤ dataTotal m) :
    busAt c j = false := by
  have hzero : ∀ i, 1 ≤ i → i ≤ dataTotal m → isPowerOfTwo i = false → busAt c i = false := by
    intro i hi1 hiT hpow
    obtain ⟨k, hk, rfl⟩ := exists_eq_dataPos hi1 hiT hpow
    exact hdata k hk
  cases hpow : isPowerOfTwo j with
  | false => exact hzero j h1 hT hpow
  | true =>
    obtain ⟨k, hk, rfl⟩ := exists_eq_two_pow_of_isPowerOfTwo h1 hT hpow
    have hcheck := hc.check k hk
    rw [xorBus_coveredPositions c hk, xorBus_eq_false, Bool.xor_false] at hcheck
    · exact hcheck
    · intro i hi
      obtain ⟨hcov, hdat⟩ := List.mem_filter.mp hi
      obtain ⟨hi1, hiT⟩ := ((mem_coveredPositions _ _ _).mp hcov).1
      exact hzero i hi1 hiT (by simpa using hdat)

/-- A codeword whose data positions are 0 is 0. -/
theorem IsCodeword.eq_zero {m : PayloadLen} {c : Bus} (hc : IsCodeword m c)
    (hdata : ∀ k < payloadBits m, busAt c (dataPos m k) = false) : c = 0#39 := by
  have hbody : ∀ j ∈ positionsUpTo (dataTotal m), busAt c j = false := fun j hj =>
    have hj := (mem_positionsUpTo _ _).mp hj
    hc.busAt_eq_false hdata hj.1 hj.2
  have hlast : busAt c (codeLen m) = false := by
    have hall := hc.overall
    rwa [xorBus_positionsUpTo_codeLen, xorBus_eq_false hbody, Bool.false_xor] at hall
  apply BitVec.eq_of_getLsbD_eq
  intro i _
  rw [BitVec.getLsbD_zero, ← hc.low, getLsbD_lowBits]
  by_cases hn : i < codeLen m
  · rw [decide_eq_true hn, Bool.true_and]
    rcases Nat.lt_succ_iff_lt_or_eq.mp hn with hT | rfl
    · exact hbody (i + 1) ((mem_positionsUpTo _ _).mpr ⟨Nat.succ_pos i, hT⟩)
    · exact hlast
  · rw [decide_eq_false hn, Bool.false_and]

/-- Codewords with the same data positions are equal: their XOR is a codeword with none set. -/
theorem IsCodeword.eq_of_dataPos {m : PayloadLen} {c d : Bus} (hc : IsCodeword m c) (hd : IsCodeword m d)
    (hdata : ∀ k < payloadBits m, busAt c (dataPos m k) = busAt d (dataPos m k)) : c = d :=
  BitVec.xor_eq_zero_iff.mp ((hc.xor hd).eq_zero fun k hk => by rw [busAt_xor, hdata k hk, Bool.xor_self])

/-- The codeword of an XOR of payloads is the XOR of their codewords (R100). -/
theorem encBus_xor (m : PayloadLen) (a b : Bus) : encBus m (a ^^^ b) = encBus m a ^^^ encBus m b := by
  apply (isCodeword_encBus m _).eq_of_dataPos ((isCodeword_encBus m a).xor (isCodeword_encBus m b))
  intro k hk
  rw [busAt_xor, busAt_encBus_dataPos m _ hk, busAt_encBus_dataPos m _ hk, busAt_encBus_dataPos m _ hk,
    BitVec.getLsbD_xor]

/-- The zero payload has the zero codeword (R100). -/
theorem encBus_zero (m : PayloadLen) : encBus m 0#39 = 0#39 := by
  have h := encBus_xor m 0#39 0#39
  rwa [BitVec.xor_self, BitVec.xor_self] at h

/-- Settles O22: additivity of the codeword that ENC drives. -/
theorem encIsLinear : Obligations.EncIsLinear := fun m a b =>
  ⟨_, _, encGives_encBus m a, encGives_encBus m b, (encGives_iff m _ _).mpr (encBus_xor m a b).symm,
    (encGives_iff m _ _).mpr (encBus_zero m).symm⟩

end Sys2Proof.Machine
end

section
/-! The minimum distance (41_encoder.md R99): a codeword with a 1 up to dataTotal has at least 3 of them there, since
one or two have a syndrome that is not 0, and the overall parity makes the number of all its 1s even. -/

namespace Sys2Proof.Machine

/-- The positions 1..k that hold 1, in increasing order. -/
def onesUpTo (k : Nat) (v : Bus) : List Nat := (positionsUpTo k).filter (busAt v)

theorem mem_onesUpTo (k : Nat) (v : Bus) (j : Nat) : j ∈ onesUpTo k v ↔ (1 ≤ j ∧ j ≤ k) ∧ busAt v j = true := by
  rw [onesUpTo, List.mem_filter, mem_positionsUpTo]

theorem nodup_onesUpTo (k : Nat) (v : Bus) : (onesUpTo k v).Nodup :=
  ((pairwise_lt_positionsUpTo k).imp Nat.ne_of_lt).filter _

/-- XOR over the first k positions is the parity of the number of 1s among them. -/
theorem xorBus_positionsUpTo (k : Nat) (v : Bus) :
    xorBus v (positionsUpTo k) = decide ((onesUpTo k v).length % 2 = 1) := by
  rw [xorBus_eq_decide_countP, List.countP_eq_length_filter, onesUpTo]

/-- Check k is the parity of the number of 1s at positions with bit k (40_parity_layout.md R79). -/
theorem xorBus_coveredPositions_two_pow (total : Nat) (v : Bus) (k : Nat) :
    xorBus v (coveredPositions (2 ^ k) total) =
      decide ((onesUpTo total v).countP (fun j => j.testBit k) % 2 = 1) := by
  have hbit : ∀ j, ((j &&& 2 ^ k) != 0) = j.testBit k := fun j => by
    rw [Bool.eq_iff_iff, bne_iff_ne, and_two_pow_ne_zero]
  rw [xorBus_eq_decide_countP, coveredPositions, onesUpTo, List.countP_filter, List.countP_filter]
  simp only [hbit, Bool.and_comm]

/-- Positions up to dataTotal have parityCount bits (40_parity_layout.md R79). -/
theorem dataTotal_lt (m : PayloadLen) : dataTotal m < 2 ^ parityCount m := by cases m <;> decide

/-- Positions up to dataTotal that lie in the same covered sets are equal; 0 lies in none (40_parity_layout.md R79). -/
theorem eq_of_testBit_parityCount {m : PayloadLen} {i j : Nat} (hi : i ≤ dataTotal m) (hj : j ≤ dataTotal m)
    (h : ∀ k < parityCount m, i.testBit k = j.testBit k) : i = j := by
  apply Nat.eq_of_testBit_eq
  intro k
  by_cases hk : k < parityCount m
  · exact h k hk
  · have hpow : 2 ^ parityCount m ≤ 2 ^ k := Nat.pow_le_pow_right (by decide) (Nat.not_lt.mp hk)
    have hlt := dataTotal_lt m
    rw [Nat.testBit_eq_false_of_lt (by omega), Nat.testBit_eq_false_of_lt (by omega)]

/-- The Hamming part alone has distance 3: a single 1 at i has syndrome i, and two at i and j have i XOR j. -/
theorem IsCodeword.three_le_length_onesUpTo {m : PayloadLen} {c : Bus} (hc : IsCodeword m c)
    (hne : onesUpTo (dataTotal m) c ≠ []) : 3 ≤ (onesUpTo (dataTotal m) c).length := by
  have hcheck : ∀ k < parityCount m, (onesUpTo (dataTotal m) c).countP (fun j => j.testBit k) % 2 ≠ 1 := by
    intro k hk
    have h := hc.check k hk
    rwa [xorBus_coveredPositions_two_pow, decide_eq_false_iff_not] at h
  have hrange : ∀ j ∈ onesUpTo (dataTotal m) c, 1 ≤ j ∧ j ≤ dataTotal m := fun j hj =>
    ((mem_onesUpTo _ _ _).mp hj).1
  have hnodup := nodup_onesUpTo (dataTotal m) c
  generalize onesUpTo (dataTotal m) c = ones at hne hcheck hrange hnodup
  match ones with
  | [] => exact absurd rfl hne
  | [i] =>
    obtain ⟨hi1, hiT⟩ := hrange i (by simp)
    have hzero : i = 0 := eq_of_testBit_parityCount hiT (Nat.zero_le _) fun k hk => by
      have h := hcheck k hk
      cases hb : i.testBit k with
      | false => rw [Nat.zero_testBit]
      | true => simp [hb] at h
    omega
  | [i, j] =>
    have heq : i = j := eq_of_testBit_parityCount (hrange i (by simp)).2 (hrange j (by simp)).2 fun k hk => by
      have h := hcheck k hk
      cases hi : i.testBit k <;> cases hj : j.testBit k <;> simp [hi, hj] at h ⊢
    simp [heq] at hnodup
  | _ :: _ :: _ :: _ => simp

/-- A codeword with a 1 up to dataTotal has at least 4 in all: the overall parity makes their number even. -/
theorem IsCodeword.four_le_length_onesUpTo {m : PayloadLen} {c : Bus} (hc : IsCodeword m c)
    (hne : onesUpTo (dataTotal m) c ≠ []) : 4 ≤ (onesUpTo (codeLen m) c).length := by
  have hthree := hc.three_le_length_onesUpTo hne
  have heven := hc.overall
  rw [xorBus_positionsUpTo, decide_eq_false_iff_not] at heven
  have hle : (onesUpTo (dataTotal m) c).length ≤ (onesUpTo (codeLen m) c).length := by
    rw [onesUpTo, onesUpTo, codeLen, positionsUpTo_succ, List.filter_append, List.length_append]
    exact Nat.le_add_right _ _
  omega

/-- Two buses differ where their XOR holds 1. -/
theorem busDistance_eq_length_onesUpTo (v w : Bus) : busDistance v w = (onesUpTo 39 (v ^^^ w)).length := by
  have hpos : positionsUpTo 39 = (List.range 39).map (· + 1) := by decide
  rw [busDistance, onesUpTo, hpos, List.filter_map, List.length_map]
  congr 1
  apply List.filter_congr
  intro i _
  exact BitVec.getLsbD_xor.symm

theorem length_onesUpTo_le_busDistance {k : Nat} (hk : k ≤ 39) (v w : Bus) :
    (onesUpTo k (v ^^^ w)).length ≤ busDistance v w := by
  rw [busDistance_eq_length_onesUpTo]
  exact ((List.range'_sublist_right.mpr hk).filter _).length_le

/-- Payloads that differ in the bits read give codewords that differ at a data position (R98). -/
theorem onesUpTo_encBus_xor_ne_nil {m : PayloadLen} {a b : Bus}
    (hne : lowBits (payloadBits m) a ≠ lowBits (payloadBits m) b) :
    onesUpTo (dataTotal m) (encBus m a ^^^ encBus m b) ≠ [] := by
  intro hnil
  apply hne
  rw [← extractPayload_encBus, ← extractPayload_encBus]
  apply BitVec.eq_of_getLsbD_eq
  intro k hk39
  rw [getLsbD_extractPayload _ _ hk39, getLsbD_extractPayload _ _ hk39]
  by_cases hk : k < payloadBits m
  · have hnot := List.eq_nil_iff_forall_not_mem.mp hnil (dataPos m k)
    rw [mem_onesUpTo, busAt_xor] at hnot
    simpa [dataPos_bounds m k hk, hk] using hnot
  · simp [hk]

/-- Settles O23: the XOR of the two codewords is a codeword, and its 1s are the positions in which they differ. -/
theorem codewordsDifferInFourPositions : Obligations.CodewordsDifferInFourPositions := fun m a b hne =>
  ⟨_, _, encGives_encBus m a, encGives_encBus m b,
    (((isCodeword_encBus m a).xor (isCodeword_encBus m b)).four_le_length_onesUpTo
      (onesUpTo_encBus_xor_ne_nil hne)).trans (length_onesUpTo_le_busDistance (codeLen_le m) _ _)⟩

end Sys2Proof.Machine
end

section
/-! The output ports of DEC on success: SYN is read bit by bit, and OPC is an XOR of bus bits (42_syndrome.md R111 to
R113). -/

namespace Sys2Proof.Machine

/-- DEC with its own length passes its length check, which computes, and drives the decoded word's ports
(43_classify_correct.md R135). -/
theorem exec_dec_codeLen (m : PayloadLen) (din : Bus) (s : State) :
    exec (Instr.ofOp .dec m (codeLen m) din) s = .next { s with out := some (decOutputs m din) } := by
  cases m <;> rfl

/-- SYN[k] is check k of the received word, and 0 from parityCount on (R112). -/
theorem getLsbD_syn_decOutputs (m : PayloadLen) (din : Bus) (k : Nat) :
    (decOutputs m din).syn.getLsbD k =
      (decide (k < parityCount m) && xorBus din (coveredPositions (2 ^ k) (dataTotal m))) := by
  rw [← checkBit_codewordOfBus, ← testBit_syndromeValue, decOutputs, BitVec.getLsbD_ofNat]
  by_cases hk : k < 6
  · rw [decide_eq_true hk, Bool.true_and]
  · have hpow : 2 ^ 6 ≤ 2 ^ k := Nat.pow_le_pow_right (by decide) (Nat.not_lt.mp hk)
    rw [decide_eq_false hk, Bool.false_and,
      Nat.testBit_eq_false_of_lt ((syndromeValue_lt_64 m _).trans_le hpow)]

theorem getLsbD_syn_decOutputs_of_lt (m : PayloadLen) (din : Bus) (k : Nat) (hk : k < parityCount m) :
    (decOutputs m din).syn.getLsbD k = xorBus din (coveredPositions (2 ^ k) (dataTotal m)) := by
  rw [getLsbD_syn_decOutputs, decide_eq_true hk, Bool.true_and]

theorem getLsbD_syn_decOutputs_of_le (m : PayloadLen) (din : Bus) (k : Nat) (hk : parityCount m ≤ k) :
    (decOutputs m din).syn.getLsbD k = false := by
  rw [getLsbD_syn_decOutputs, decide_eq_false (Nat.not_lt.mpr hk), Bool.false_and]

/-- The syndrome bit sequence is read back from SYN, its most significant check first (R112). -/
theorem syndromeBits_eq_map_syn (m : PayloadLen) (din : Bus) :
    syndromeBits m (codewordOfBus m din) =
      (List.range (parityCount m)).map fun t => (decOutputs m din).syn.getLsbD (parityCount m - 1 - t) := by
  rw [syndromeBits_eq, ← List.map_reverse, List.range_eq_range', List.reverse_range', List.map_map,
    ← List.range_eq_range']
  apply List.map_congr_left
  intro t ht
  have ht := List.mem_range.mp ht
  rw [Function.comp_apply, Nat.zero_add, getLsbD_syn_decOutputs_of_lt m din _ (by omega), checkBit_codewordOfBus]

theorem opc_decOutputs (m : PayloadLen) (din : Bus) :
    (decOutputs m din).opc = xorBus din (positionsUpTo (codeLen m)) := overallParityCheck_codewordOfBus m din

/-- Settles O24: the ports of the three lengths are those of `decOutputs`, whose SYN is read bit by bit. -/
theorem decDrivesSyndromePorts : Obligations.DecDrivesSyndromePorts := fun din s =>
  ⟨⟨_, exec_dec_codeLen .len8 din s, rfl, rfl, getLsbD_syn_decOutputs_of_lt .len8 din,
      getLsbD_syn_decOutputs_of_le .len8 din, syndromeBits_eq_map_syn .len8 din, opc_decOutputs .len8 din⟩,
    ⟨_, exec_dec_codeLen .len16 din s, rfl, rfl, getLsbD_syn_decOutputs_of_lt .len16 din,
      getLsbD_syn_decOutputs_of_le .len16 din, syndromeBits_eq_map_syn .len16 din, opc_decOutputs .len16 din⟩,
    ⟨_, exec_dec_codeLen .len32 din s, rfl, rfl, getLsbD_syn_decOutputs_of_lt .len32 din,
      syndromeBits_eq_map_syn .len32 din, opc_decOutputs .len32 din⟩⟩

end Sys2Proof.Machine
end

section
/-! The syndrome of an error pattern (42_syndrome.md R114): the codeword drops out of every check, and the checks of the
error mask are the bits of the XOR of the flipped positions. -/

namespace Sys2Proof.Machine

/-- The checks of a corrupted codeword are those of the error alone. -/
theorem IsCodeword.xorBus_coveredPositions_xor {m : PayloadLen} {c : Bus} (hc : IsCodeword m c) (e : Bus) {k : Nat}
    (hk : k < parityCount m) :
    xorBus (c ^^^ e) (coveredPositions (2 ^ k) (dataTotal m)) = xorBus e (coveredPositions (2 ^ k) (dataTotal m)) := by
  rw [xorBus_xor, hc.check k hk, Bool.false_xor]

/-- The overall parity check of a corrupted codeword is that of the error alone. -/
theorem IsCodeword.xorBus_positionsUpTo_xor {m : PayloadLen} {c : Bus} (hc : IsCodeword m c) (e : Bus) :
    xorBus (c ^^^ e) (positionsUpTo (codeLen m)) = xorBus e (positionsUpTo (codeLen m)) := by
  rw [xorBus_xor, hc.overall, Bool.false_xor]

/-- The 1s of an error mask are the flipped positions, in some order. -/
theorem onesUpTo_flipMask_perm {n k : Nat} (hk : k ≤ 39) {flips : List Nat} (hnodup : flips.Nodup)
    (hin : ∀ i ∈ flips, 1 ≤ i ∧ i ≤ n) :
    (onesUpTo k (flipMask n flips)).Perm (flips.filter fun j => decide (j ≤ k)) := by
  rw [List.perm_ext_iff_of_nodup (nodup_onesUpTo k _) (hnodup.filter _)]
  intro j
  rw [mem_onesUpTo, List.mem_filter, decide_eq_true_iff]
  constructor
  · rintro ⟨⟨h1, hjk⟩, hbit⟩
    rw [busAt_flipMask_of_inRange n flips hin j h1 (hjk.trans hk)] at hbit
    exact ⟨of_decide_eq_true hbit, hjk⟩
  · rintro ⟨hmem, hjk⟩
    have h1 := (hin j hmem).1
    rw [busAt_flipMask_of_inRange n flips hin j h1 (hjk.trans hk)]
    exact ⟨⟨h1, hjk⟩, decide_eq_true hmem⟩

/-- A bit of an XOR of numbers is the parity of how many of them have it. -/
theorem testBit_foldr_xor (l : List Nat) (k : Nat) :
    (l.foldr (fun j acc => j ^^^ acc) 0).testBit k = decide (l.countP (fun j => j.testBit k) % 2 = 1) := by
  induction l with
  | nil => simp
  | cons j l ih =>
    rw [List.foldr_cons, Nat.testBit_xor, ih, List.countP_cons]
    cases j.testBit k with
    | false => simp
    | true => simp [Nat.succ_mod_two_eq_one_iff, ← decide_not]

theorem foldr_xor_lt_two_pow {l : List Nat} {n : Nat} (h : ∀ j ∈ l, j < 2 ^ n) :
    l.foldr (fun j acc => j ^^^ acc) 0 < 2 ^ n := by
  induction l with
  | nil => exact Nat.two_pow_pos n
  | cons j l ih =>
    exact Nat.xor_lt_two_pow (h j List.mem_cons_self) (ih fun i hi => h i (List.mem_cons_of_mem j hi))

/-- The XOR of one or two distinct positions is not 0, and two positions cannot both be the one above dataTotal. -/
theorem foldr_xor_pair_ne_zero {total i j : Nat} (hne : i ≠ j) (hi : 1 ≤ i ∧ i ≤ total + 1)
    (hj : 1 ≤ j ∧ j ≤ total + 1) :
    ([i, j].filter fun j => decide (j ≤ total)).foldr (fun j acc => j ^^^ acc) 0 ≠ 0 := by
  by_cases hiT : i ≤ total <;> by_cases hjT : j ≤ total
  · simpa [hiT, hjT, Nat.xor_eq_zero_iff] using hne
  · simpa [hiT, hjT] using Nat.ne_of_gt hi.1
  · simpa [hiT, hjT] using Nat.ne_of_gt hj.1
  · omega

section
variable {m : PayloadLen} {c : Bus} {flips : List Nat}

/-- SYN of a corrupted codeword is the XOR of the flipped positions up to dataTotal (R114). -/
theorem IsCodeword.syn_decOutputs_flip (hc : IsCodeword m c) (hnodup : flips.Nodup)
    (hin : ∀ i ∈ flips, 1 ≤ i ∧ i ≤ codeLen m) :
    (decOutputs m (c ^^^ flipMask (codeLen m) flips)).syn.toNat =
      (flips.filter fun j => decide (j ≤ dataTotal m)).foldr (fun j acc => j ^^^ acc) 0 := by
  have hT : dataTotal m ≤ 39 := (Nat.le_succ _).trans (codeLen_le m)
  apply Nat.eq_of_testBit_eq
  intro k
  rw [BitVec.testBit_toNat]
  by_cases hk : k < parityCount m
  · rw [getLsbD_syn_decOutputs_of_lt m _ k hk, hc.xorBus_coveredPositions_xor _ hk, xorBus_coveredPositions_two_pow,
      (onesUpTo_flipMask_perm hT hnodup hin).countP_eq, testBit_foldr_xor]
  · have hle := Nat.not_lt.mp hk
    have hlt := foldr_xor_lt_two_pow (n := parityCount m) (l := flips.filter fun j => decide (j ≤ dataTotal m))
      fun j hj => Nat.lt_of_le_of_lt (of_decide_eq_true (List.mem_filter.mp hj).2) (dataTotal_lt m)
    rw [getLsbD_syn_decOutputs_of_le m _ k hle,
      Nat.testBit_eq_false_of_lt (hlt.trans_le (Nat.pow_le_pow_right (by decide) hle))]

/-- OPC of a corrupted codeword is the parity of the number of flips (R114). -/
theorem IsCodeword.opc_decOutputs_flip (hc : IsCodeword m c) (hnodup : flips.Nodup)
    (hin : ∀ i ∈ flips, 1 ≤ i ∧ i ≤ codeLen m) :
    (decOutputs m (c ^^^ flipMask (codeLen m) flips)).opc = decide (flips.length % 2 = 1) := by
  have hall : (flips.filter fun j => decide (j ≤ codeLen m)) = flips :=
    List.filter_eq_self.mpr fun i hi => decide_eq_true (hin i hi).2
  rw [opc_decOutputs, hc.xorBus_positionsUpTo_xor, xorBus_positionsUpTo,
    (onesUpTo_flipMask_perm (codeLen_le m) hnodup hin).length_eq, hall]

/-- Two flips never give syndrome 0 (R114). -/
theorem IsCodeword.syn_decOutputs_two_flips_ne_zero (hc : IsCodeword m c) (hnodup : flips.Nodup)
    (hin : ∀ i ∈ flips, 1 ≤ i ∧ i ≤ codeLen m) (htwo : flips.length = 2) :
    (decOutputs m (c ^^^ flipMask (codeLen m) flips)).syn ≠ 0#6 := by
  intro hzero
  have hxor := hc.syn_decOutputs_flip hnodup hin
  rw [hzero] at hxor
  obtain ⟨i, j, rfl⟩ := List.length_eq_two.mp htwo
  have hne : i ≠ j := by simpa using hnodup
  exact foldr_xor_pair_ne_zero hne (hin i (by simp)) (hin j (by simp)) hxor.symm

end

/-- Settles O32: Corrupt inverts by the mask of the flips, and DEC of the result sees the mask alone. -/
theorem syndromeOfErrorPattern : Obligations.SyndromeOfErrorPattern := fun m din flips hnodup hin =>
  have hc := isCodeword_encBus m din
  ⟨_, _, _, encGives_encBus m din, corrupt_eq_ok _ _ flips hin, exec_dec_codeLen m _,
    hc.syn_decOutputs_flip hnodup hin, hc.opc_decOutputs_flip hnodup hin,
    hc.syn_decOutputs_two_flips_ne_zero hnodup hin⟩

end Sys2Proof.Machine
end

section
/-! Classification and correction on the output ports (43_classify_correct.md R130 to R136): SYN and OPC choose the row
of the decision table, and a row fixes all ports of DEC. -/

namespace Sys2Proof.Machine

/-- A bus is its bits at the positions 1 to 39. -/
theorem bus_ext_busAt {v w : Bus} (h : ∀ i, 1 ≤ i → i ≤ 39 → busAt v i = busAt w i) : v = w :=
  BitVec.eq_of_getLsbD_eq fun i hi => h (i + 1) (Nat.succ_pos i) hi

/-- The bus with a single 1, at position s. -/
theorem busAt_one_shiftLeft {s i : Nat} (hs : 1 ≤ s) (h1 : 1 ≤ i) (h39 : i ≤ 39) :
    busAt (1#39 <<< (s - 1)) i = decide (s = i) := by
  rw [busAt, BitVec.getLsbD_shiftLeft, BitVec.getLsbD_one, Bool.eq_iff_iff]
  simp only [Bool.and_eq_true, Bool.not_eq_true', decide_eq_true_eq, decide_eq_false_iff_not]
  omega

/-- Inverting the bit at a position of a sequence inverts that bit of its bus (R132). -/
theorem busOfCodeword_flipAt {c : BitSeq} {s : Nat} (hs : 1 ≤ s) (hn : s ≤ c.length) :
    busOfCodeword (flipAt c s) = busOfCodeword c ^^^ (1#39 <<< (s - 1)) := by
  apply bus_ext_busAt
  intro i h1 h39
  rw [busAt_xor, busAt_one_shiftLeft hs h1 h39, busAt_busOfCodeword _ i h1 h39, busAt_busOfCodeword _ i h1 h39, flipAt,
    bitAt_setBitAt]
  by_cases hsi : s = i
  · subst hsi
    simp [hs, hn]
  · simp [hsi]

/-- The word corrected for SingleCorrectable(s), on the bus: bit s-1 is inverted unless s lies above n (R132, R134). -/
theorem busOfCodeword_correctWord_single (m : PayloadLen) (din : Bus) {s : Nat} (hs : 1 ≤ s) :
    busOfCodeword (correctWord m (codewordOfBus m din) (.singleCorrectable s)) =
      if s ≤ codeLen m then lowBits (codeLen m) din ^^^ (1#39 <<< (s - 1)) else lowBits (codeLen m) din := by
  rw [correctWord]
  by_cases hn : s ≤ codeLen m
  · rw [if_pos ⟨hs, hn⟩, if_pos hn, busOfCodeword_flipAt hs (by rwa [length_codewordOfBus]),
      busOfCodeword_codewordOfBus]
  · rw [if_neg fun h => hn h.2, if_neg hn, busOfCodeword_codewordOfBus]

/-- SYN carries the whole syndrome value (42_syndrome.md R112). -/
theorem toNat_syn_decOutputs (m : PayloadLen) (din : Bus) :
    (decOutputs m din).syn.toNat = syndromeValue m (codewordOfBus m din) := by
  rw [decOutputs, BitVec.toNat_ofNat, Nat.mod_eq_of_lt (syndromeValue_lt_64 m _)]

/-- The classifier sees SYN and OPC alone (R130). -/
theorem classifyWord_codewordOfBus (m : PayloadLen) (din : Bus) :
    classifyWord m (codewordOfBus m din) = classify (decOutputs m din).syn.toNat (decOutputs m din).opc := by
  rw [toNat_syn_decOutputs]
  rfl

theorem toNat_syn_ne_zero {syn : Syn} (hne : syn ≠ 0#6) : syn.toNat ≠ 0 := fun h => hne (BitVec.eq_of_toNat_eq h)

section
variable {m : PayloadLen} {din : Bus} {syn : Syn} {opc : Bool} {cls : Classification}

/-- The ports of DEC by SYN, OPC and their classification (R135). -/
theorem decOutputs_of_classify (hsyn : (decOutputs m din).syn = syn) (hopc : (decOutputs m din).opc = opc)
    (hcls : classify syn.toNat opc = cls) :
    decOutputs m din = ⟨0#3, BitVec.ofNat 6 (codeLen m), busOfCodeword (correctWord m (codewordOfBus m din) cls), syn,
      opc, clsCode cls, cvalidOf cls⟩ := by
  subst hsyn hopc hcls
  rw [← classifyWord_codewordOfBus]
  rfl

/-- Row 1 of R130: None. -/
theorem decOutputs_of_syn_zero_opc_false (hsyn : (decOutputs m din).syn = 0#6) (hopc : (decOutputs m din).opc = false) :
    decOutputs m din =
      ⟨0#3, BitVec.ofNat 6 (codeLen m), lowBits (codeLen m) din, 0#6, false, 0b00#2, false⟩ := by
  rw [decOutputs_of_classify hsyn hopc (cls := .none) rfl, correctWord, busOfCodeword_codewordOfBus]
  rfl

/-- Row 2 of R130: DoubleUncorrectable at syndrome 0. -/
theorem decOutputs_of_syn_zero_opc_true (hsyn : (decOutputs m din).syn = 0#6) (hopc : (decOutputs m din).opc = true) :
    decOutputs m din =
      ⟨0#3, BitVec.ofNat 6 (codeLen m), lowBits (codeLen m) din, 0#6, true, 0b10#2, false⟩ := by
  rw [decOutputs_of_classify hsyn hopc (cls := .doubleUncorrectable) rfl, correctWord, busOfCodeword_codewordOfBus]
  rfl

/-- Row 3 of R130: SingleCorrectable, whether or not a bit can be flipped (R133). -/
theorem decOutputs_of_syn_ne_zero_opc_true (hsyn : (decOutputs m din).syn = syn) (hne : syn ≠ 0#6)
    (hopc : (decOutputs m din).opc = true) :
    decOutputs m din = ⟨0#3, BitVec.ofNat 6 (codeLen m),
      if syn.toNat ≤ codeLen m then lowBits (codeLen m) din ^^^ (1#39 <<< (syn.toNat - 1))
        else lowBits (codeLen m) din,
      syn, true, 0b01#2, true⟩ := by
  have hs := toNat_syn_ne_zero hne
  rw [decOutputs_of_classify hsyn hopc (cls := .singleCorrectable syn.toNat) (by simp [classify, hs]),
    busOfCodeword_correctWord_single m din (Nat.pos_of_ne_zero hs)]
  rfl

/-- Row 4 of R130: DoubleUncorrectable at a syndrome that is not 0. -/
theorem decOutputs_of_syn_ne_zero_opc_false (hsyn : (decOutputs m din).syn = syn) (hne : syn ≠ 0#6)
    (hopc : (decOutputs m din).opc = false) :
    decOutputs m din =
      ⟨0#3, BitVec.ofNat 6 (codeLen m), lowBits (codeLen m) din, syn, false, 0b10#2, false⟩ := by
  have hs := toNat_syn_ne_zero hne
  rw [decOutputs_of_classify hsyn hopc (cls := .doubleUncorrectable) (by simp [classify, hs]), correctWord,
    busOfCodeword_codewordOfBus]
  rfl

end

/-- Outputs known as a whole, read at CLS, CVALID and DOUT. -/
theorem cls_cvalid_dout_of_eq {o : Outputs} {err olen dout syn opc cls cvalid}
    (h : o = ⟨err, olen, dout, syn, opc, cls, cvalid⟩) : o.cls = cls ∧ o.cvalid = cvalid ∧ o.dout = dout := by
  subst h
  exact ⟨rfl, rfl, rfl⟩

/-- Settles O25: the four rows of the decision table, each read at the ports CLS, CVALID and DOUT. -/
theorem decClassifiesAndCorrects : Obligations.DecClassifiesAndCorrects := fun m din s =>
  ⟨_, exec_dec_codeLen m din s,
    fun hsyn hopc => cls_cvalid_dout_of_eq (decOutputs_of_syn_zero_opc_false hsyn hopc),
    fun hsyn hopc => cls_cvalid_dout_of_eq (decOutputs_of_syn_zero_opc_true hsyn hopc),
    fun hne hopc => cls_cvalid_dout_of_eq (decOutputs_of_syn_ne_zero_opc_true rfl hne hopc),
    fun hne hopc => cls_cvalid_dout_of_eq (decOutputs_of_syn_ne_zero_opc_false rfl hne hopc)⟩

end Sys2Proof.Machine
end

section
/-! DEC of a codeword with no, one or two errors (43_classify_correct.md R137 to R140): the error pattern gives SYN and
OPC, and these choose the row of the decision table. -/

namespace Sys2Proof.Machine

/-- DEC with its own length gives the outputs computed for the received word. -/
theorem decGives_of_decOutputs_eq {m : PayloadLen} {din : Bus} {o : Outputs} (h : decOutputs m din = o) :
    DecGives m din o := fun s => h ▸ exec_dec_codeLen m din s

/-- The mask of one position is the bus with a single 1. -/
theorem flipMask_singleton {n i : Nat} (h1 : 1 ≤ i) (hn : i ≤ n) : flipMask n [i] = 1#39 <<< (i - 1) := by
  apply bus_ext_busAt
  intro j hj1 hj39
  rw [busAt_flipMask_of_inRange n [i] (List.forall_mem_singleton.mpr ⟨h1, hn⟩) j hj1 hj39,
    busAt_one_shiftLeft h1 hj1 hj39]
  simp [eq_comm]

theorem one_le_codeLen (m : PayloadLen) : 1 ≤ codeLen m := Nat.le_add_left 1 _

/-- A position of a codeword fits SYN. -/
theorem toNat_ofNat_position {m : PayloadLen} {i : Nat} (hn : i ≤ codeLen m) : (BitVec.ofNat 6 i).toNat = i := by
  have hle := codeLen_le m
  rw [BitVec.toNat_ofNat, Nat.mod_eq_of_lt (by omega)]

section
variable {m : PayloadLen} {c : Bus}

/-- SYN of a codeword is 0 (R137). -/
theorem IsCodeword.syn_decOutputs_eq_zero (hc : IsCodeword m c) : (decOutputs m c).syn = 0#6 := by
  apply BitVec.eq_of_getLsbD_eq
  intro k _
  rw [BitVec.getLsbD_zero]
  by_cases hk : k < parityCount m
  · rw [getLsbD_syn_decOutputs_of_lt m c k hk, hc.check k hk]
  · exact getLsbD_syn_decOutputs_of_le m c k (Nat.not_lt.mp hk)

/-- OPC of a codeword is 0 (R137). -/
theorem IsCodeword.opc_decOutputs_eq_false (hc : IsCodeword m c) : (decOutputs m c).opc = false :=
  (opc_decOutputs m c).trans hc.overall

/-- Flips leave the bits above the codeword 0. -/
theorem IsCodeword.lowBits_flip (hc : IsCodeword m c) (flips : List Nat) :
    lowBits (codeLen m) (c ^^^ flipMask (codeLen m) flips) = c ^^^ flipMask (codeLen m) flips := by
  rw [lowBits_xor, hc.low, flipMask, lowBits_busOfCodeword _ _ (by simp)]

/-- DEC of a codeword gives it back, with no error reported (R137). -/
theorem IsCodeword.decOutputs_eq (hc : IsCodeword m c) :
    decOutputs m c = ⟨0#3, BitVec.ofNat 6 (codeLen m), c, 0#6, false, 0b00#2, false⟩ := by
  rw [decOutputs_of_syn_zero_opc_false hc.syn_decOutputs_eq_zero hc.opc_decOutputs_eq_false, hc.low]

/-- SYN of a codeword with one error in the Hamming part is its position (R138). -/
theorem IsCodeword.syn_decOutputs_one_flip (hc : IsCodeword m c) {i : Nat} (h1 : 1 ≤ i) (hT : i ≤ dataTotal m) :
    (decOutputs m (c ^^^ flipMask (codeLen m) [i])).syn = BitVec.ofNat 6 i := by
  have hn : i ≤ codeLen m := hT.trans (Nat.le_succ _)
  apply BitVec.eq_of_toNat_eq
  rw [hc.syn_decOutputs_flip (List.nodup_singleton i) (List.forall_mem_singleton.mpr ⟨h1, hn⟩),
    toNat_ofNat_position hn]
  simp [hT]

/-- SYN of a codeword whose last bit alone is wrong is 0: no check covers it (R139). -/
theorem IsCodeword.syn_decOutputs_overall_flip (hc : IsCodeword m c) :
    (decOutputs m (c ^^^ flipMask (codeLen m) [codeLen m])).syn = 0#6 := by
  have hT : ¬codeLen m ≤ dataTotal m := Nat.not_succ_le_self _
  apply BitVec.eq_of_toNat_eq
  rw [hc.syn_decOutputs_flip (List.nodup_singleton _)
    (List.forall_mem_singleton.mpr ⟨one_le_codeLen m, le_refl _⟩)]
  simp [hT]

/-- OPC of a codeword with one error is 1 (R138, R139). -/
theorem IsCodeword.opc_decOutputs_one_flip (hc : IsCodeword m c) {i : Nat} (h1 : 1 ≤ i) (hn : i ≤ codeLen m) :
    (decOutputs m (c ^^^ flipMask (codeLen m) [i])).opc = true :=
  hc.opc_decOutputs_flip (List.nodup_singleton i) (List.forall_mem_singleton.mpr ⟨h1, hn⟩)

/-- One error changes the word: OPC of the codeword is 0, and with the error it is 1. -/
theorem IsCodeword.one_flip_ne (hc : IsCodeword m c) {i : Nat} (h1 : 1 ≤ i) (hn : i ≤ codeLen m) :
    c ^^^ flipMask (codeLen m) [i] ≠ c := by
  intro heq
  have hopc := hc.opc_decOutputs_one_flip h1 hn
  rw [heq, hc.opc_decOutputs_eq_false] at hopc
  exact Bool.noConfusion hopc

/-- DEC of a codeword with one error in the Hamming part inverts the same bit again (R138). -/
theorem IsCodeword.decOutputs_one_flip (hc : IsCodeword m c) {i : Nat} (h1 : 1 ≤ i) (hT : i ≤ dataTotal m) :
    decOutputs m (c ^^^ flipMask (codeLen m) [i]) =
      ⟨0#3, BitVec.ofNat 6 (codeLen m), c, BitVec.ofNat 6 i, true, 0b01#2, true⟩ := by
  have hn : i ≤ codeLen m := hT.trans (Nat.le_succ _)
  have hnat : (BitVec.ofNat 6 i).toNat = i := toNat_ofNat_position hn
  have hne : BitVec.ofNat 6 i ≠ 0#6 := fun h => by
    rw [h, BitVec.toNat_zero] at hnat
    omega
  rw [decOutputs_of_syn_ne_zero_opc_true (hc.syn_decOutputs_one_flip h1 hT) hne (hc.opc_decOutputs_one_flip h1 hn),
    hnat, if_pos hn, hc.lowBits_flip, flipMask_singleton h1 hn, BitVec.xor_assoc, BitVec.xor_self, BitVec.xor_zero]

/-- DEC of a codeword whose last bit alone is wrong reports an error and leaves the word as received (R139). -/
theorem IsCodeword.decOutputs_overall_flip (hc : IsCodeword m c) :
    decOutputs m (c ^^^ flipMask (codeLen m) [codeLen m]) =
      ⟨0#3, BitVec.ofNat 6 (codeLen m), c ^^^ flipMask (codeLen m) [codeLen m], 0#6, true, 0b10#2, false⟩ := by
  rw [decOutputs_of_syn_zero_opc_true hc.syn_decOutputs_overall_flip
    (hc.opc_decOutputs_one_flip (one_le_codeLen m) (le_refl _)), hc.lowBits_flip]

/-- DEC of a codeword with two errors reports them and leaves the word as received (R140). -/
theorem IsCodeword.decOutputs_two_flips (hc : IsCodeword m c) {flips : List Nat} (hnodup : flips.Nodup)
    (hin : ∀ i ∈ flips, 1 ≤ i ∧ i ≤ codeLen m) (htwo : flips.length = 2) :
    decOutputs m (c ^^^ flipMask (codeLen m) flips) =
      ⟨0#3, BitVec.ofNat 6 (codeLen m), c ^^^ flipMask (codeLen m) flips,
        (decOutputs m (c ^^^ flipMask (codeLen m) flips)).syn, false, 0b10#2, false⟩ := by
  have hopc : (decOutputs m (c ^^^ flipMask (codeLen m) flips)).opc = false := by
    rw [hc.opc_decOutputs_flip hnodup hin, htwo]
    rfl
  have hrow := decOutputs_of_syn_ne_zero_opc_false rfl
    (hc.syn_decOutputs_two_flips_ne_zero hnodup hin htwo) hopc
  rwa [hc.lowBits_flip] at hrow

end

/-- Settles O28: the codeword's own checks are 0, so its row is None. -/
theorem cleanCodewordRoundTrip : Obligations.CleanCodewordRoundTrip := fun m din =>
  ⟨_, encGives_encBus m din, decGives_of_decOutputs_eq (isCodeword_encBus m din).decOutputs_eq⟩

/-- Settles O29: SYN is the position of the error, and the corrector inverts the bit that Corrupt inverted. -/
theorem singleErrorsCorrected : Obligations.SingleErrorsCorrected := fun m din i h1 hT =>
  ⟨_, _, encGives_encBus m din,
    corrupt_eq_ok _ _ [i] (List.forall_mem_singleton.mpr ⟨h1, hT.trans (Nat.le_succ _)⟩),
    decGives_of_decOutputs_eq ((isCodeword_encBus m din).decOutputs_one_flip h1 hT)⟩

/-- Settles O30: no check covers the last bit, so SYN stays 0 while OPC is 1. -/
theorem overallBitErrorReported : Obligations.OverallBitErrorReported := fun m din =>
  have hc := isCodeword_encBus m din
  ⟨_, _, encGives_encBus m din,
    corrupt_eq_ok _ _ [codeLen m] (List.forall_mem_singleton.mpr ⟨one_le_codeLen m, le_refl _⟩),
    hc.one_flip_ne (one_le_codeLen m) (le_refl _), decGives_of_decOutputs_eq hc.decOutputs_overall_flip⟩

/-- Settles O31: two flips leave OPC 0 and give a syndrome that is not 0, which is the row that flips nothing. -/
theorem doubleErrorsDetected : Obligations.DoubleErrorsDetected := by
  intro m din i j hi1 hin hj1 hjn hne
  have hc := isCodeword_encBus m din
  have hnodup : [i, j].Nodup := by simpa using hne
  have hrange : ∀ k ∈ [i, j], 1 ≤ k ∧ k ≤ codeLen m :=
    List.forall_mem_cons.mpr ⟨⟨hi1, hin⟩, List.forall_mem_singleton.mpr ⟨hj1, hjn⟩⟩
  exact ⟨_, _, _, encGives_encBus m din, corrupt_eq_ok _ _ [i, j] hrange,
    hc.syn_decOutputs_two_flips_ne_zero hnodup hrange rfl,
    decGives_of_decOutputs_eq (hc.decOutputs_two_flips hnodup hrange rfl)⟩

end Sys2Proof.Machine
end

section
/-! The ports an evaluation drives are legal (60_exceptions.md R150, R153; 30_encoding.md R58; 43_classify_correct.md
R131, R133): shown for the three output records, then along the result of a request. -/

namespace Sys2Proof.Machine

/-- The error outputs carry a code of 1 to 4 and nothing else (R150, R153). -/
theorem legal_errorOutputs (e : ErrorKind) : (errorOutputs e).Legal where
  err_range := by cases e <;> decide
  olen_success := fun h => absurd h (by cases e <;> decide)
  dout_unused := fun _ _ => BitVec.getLsbD_zero
  syn_unused := fun _ _ => BitVec.getLsbD_zero
  cvalid_iff := ⟨nofun, nofun⟩
  no_class := fun _ => ⟨rfl, rfl, rfl⟩
  error_outputs := fun _ => ⟨rfl, rfl, rfl, rfl, rfl, rfl⟩

/-- OLEN carries one of the three codeword lengths (R54, R96, R135). -/
theorem ofNat_codeLen_cases (m : PayloadLen) :
    BitVec.ofNat 6 (codeLen m) = 13#6 ∨ BitVec.ofNat 6 (codeLen m) = 22#6 ∨ BitVec.ofNat 6 (codeLen m) = 39#6 := by
  cases m <;> decide

/-- OLEN tells how many bits of SYN are significant (42_syndrome.md R110). -/
theorem syndromeWidth_codeLen (m : PayloadLen) : syndromeWidth (BitVec.ofNat 6 (codeLen m)) = parityCount m := by
  cases m <;> rfl

/-- ENC's outputs are legal: DOUT is 0 above the codeword, and the decoder's ports carry nothing (R96). -/
theorem legal_encOutputs (m : PayloadLen) (din : Bus) : (encOutputs m din).Legal where
  err_range := Nat.zero_le _
  olen_success := fun _ => ofNat_codeLen_cases m
  dout_unused := fun i hi => getLsbD_dout_encOutputs m din i ((toNat_ofNat_position (le_refl _)).symm.trans_le hi)
  syn_unused := fun _ _ => BitVec.getLsbD_zero
  cvalid_iff := ⟨nofun, nofun⟩
  no_class := fun _ => ⟨rfl, rfl, rfl⟩
  error_outputs := fun h => absurd rfl h

/-- Correction keeps the length of the received word (43_classify_correct.md R132). -/
@[simp] theorem length_correctWord (m : PayloadLen) (c : BitSeq) (cls : Classification) :
    (correctWord m c cls).length = c.length := by
  cases cls with
  | singleCorrectable s =>
    rw [correctWord]
    split
    · exact length_setBitAt ..
    · rfl
  | none | doubleUncorrectable => rfl

/-- CVALID marks exactly the code of SingleCorrectable (R133). -/
theorem cvalidOf_iff_clsCode (cls : Classification) : cvalidOf cls = true ↔ clsCode cls = 0b01#2 := by
  cases cls with
  | singleCorrectable s => exact ⟨fun _ => rfl, fun _ => rfl⟩
  | none | doubleUncorrectable => exact ⟨nofun, nofun⟩

/-- A classification never has the code that says there is none (R131). -/
theorem clsCode_ne_notApplicable (cls : Classification) : clsCode cls ≠ clsNotApplicable := by
  cases cls <;> nofun

/-- DOUT of DEC is 0 from bit n on (R58). -/
theorem getLsbD_dout_decOutputs (m : PayloadLen) (din : Bus) (j : Nat) (hj : codeLen m ≤ j) :
    (decOutputs m din).dout.getLsbD j = false :=
  getLsbD_busOfCodeword_of_length_le (by rwa [length_correctWord, length_codewordOfBus])

/-- DEC's outputs are legal: DOUT and SYN are 0 above their lengths, and CLS with CVALID is that of a classification
(R135). -/
theorem legal_decOutputs (m : PayloadLen) (din : Bus) : (decOutputs m din).Legal where
  err_range := Nat.zero_le _
  olen_success := fun _ => ofNat_codeLen_cases m
  dout_unused := fun i hi => getLsbD_dout_decOutputs m din i ((toNat_ofNat_position (le_refl _)).symm.trans_le hi)
  syn_unused := fun k hk => getLsbD_syn_decOutputs_of_le m din k ((syndromeWidth_codeLen m).symm.trans_le hk)
  cvalid_iff := cvalidOf_iff_clsCode _
  no_class := fun h => absurd h (clsCode_ne_notApplicable _)
  error_outputs := fun h => absurd rfl h

theorem legal_encResult (m : PayloadLen) (dlen : Nat) (din : Bus) : (encResult m dlen din).Legal := by
  unfold encResult
  cases checkEncLen m dlen with
  | none => exact legal_encOutputs m din
  | some e => exact legal_errorOutputs e

theorem legal_decResult (m : PayloadLen) (dlen : Nat) (din : Bus) : (decResult m dlen din).Legal := by
  unfold decResult
  cases checkDecLen m dlen with
  | none => exact legal_decOutputs m din
  | some e => exact legal_errorOutputs e

theorem legal_instrResult (i : Instr) : (instrResult i).Legal := by
  unfold instrResult
  cases i.op with
  | enc => exact legal_encResult ..
  | dec => exact legal_decResult ..

/-- Whatever stands on the ports, what its evaluation drives is legal. -/
theorem legal_requestResult (r : Req) : (requestResult r).Legal := by
  unfold requestResult
  cases decode r with
  | ok i => exact legal_instrResult i
  | error e => exact legal_errorOutputs _

/-- Settles O9: a step replaces what was observed by the result of the request, which is legal. -/
theorem stepKeepsPortsLegal : Obligations.StepKeepsPortsLegal := by
  intro s t _ hstep o ho
  obtain rfl := eq_of_step_eq_next hstep
  obtain rfl := Option.some.inj ho
  exact legal_requestResult s.request

end Sys2Proof.Machine
end

section
/-! Errors as results (60_exceptions.md R152, R153, R155): every evaluation completes, ERR is the first check that
fails, and an error fixes every other port. -/

namespace Sys2Proof.Machine

/-- Settles O5: a step and an instruction complete with their result. -/
theorem everyRequestCompletes : Obligations.EveryRequestCompletes :=
  ⟨fun s => ⟨_, step_eq_complete s⟩, fun i s => ⟨_, exec_eq_complete i s⟩⟩

/-- Check 1 is the decoder's look at OP (R152). -/
theorem le_toNat_of_decodeOp_eq_none :
    ∀ cmd : Cmd, decodeOp (cmd.extractLsb' 2 2) = none → 8 ≤ cmd.toNat := by decide

/-- Check 2 is the decoder's look at LEN, once OP names an operation (R152). -/
theorem toNat_of_decodeLen_eq_none :
    ∀ cmd : Cmd, (decodeOp (cmd.extractLsb' 2 2)).isSome → decodeLen (cmd.extractLsb' 0 2) = none →
      cmd.toNat = 3 ∨ cmd.toNat = 7 := by decide

/-- Check 1 (R152). -/
theorem firstFailedCheck_of_illegalOp {cmd : Cmd} (h : 8 ≤ cmd.toNat) (dlen : LenWord) :
    firstFailedCheck cmd dlen = errorCode .illegalOp := if_pos h

/-- Check 2, made when check 1 passes (R152). -/
theorem firstFailedCheck_of_unsupportedLen {cmd : Cmd} (h : cmd.toNat = 3 ∨ cmd.toNat = 7) (dlen : LenWord) :
    firstFailedCheck cmd dlen = errorCode .invalidLength := by
  rw [firstFailedCheck, if_neg (by omega), if_pos h]
  rfl

/-- Checks 3a and 3b are ENC's length check, compared for the 64 values of DLEN (R152). -/
theorem firstFailedCheck_enc (m : PayloadLen) (dlen : LenWord) :
    firstFailedCheck (encodeOp .enc ++ encodeLen m) dlen = (checkEncLen m dlen.toNat).elim errNone errorCode := by
  cases m <;> decide +revert

/-- Check 4a is DEC's length check, compared for the 64 values of DLEN (R152). -/
theorem firstFailedCheck_dec (m : PayloadLen) (dlen : LenWord) :
    firstFailedCheck (encodeOp .dec ++ encodeLen m) dlen = (checkDecLen m dlen.toNat).elim errNone errorCode := by
  cases m <;> decide +revert

theorem err_encResult (m : PayloadLen) (dlen : Nat) (din : Bus) :
    (encResult m dlen din).err = (checkEncLen m dlen).elim errNone errorCode := by
  unfold encResult
  cases checkEncLen m dlen with
  | none => rfl
  | some e => rfl

theorem err_decResult (m : PayloadLen) (dlen : Nat) (din : Bus) :
    (decResult m dlen din).err = (checkDecLen m dlen).elim errNone errorCode := by
  unfold decResult
  cases checkDecLen m dlen with
  | none => rfl
  | some e => rfl

/-- An operation drives on ERR what its length check answers for the stated length (R152). -/
theorem err_instrResult_ofOp (op : Op) (m : PayloadLen) (dlen : LenWord) (din : Bus) :
    (instrResult (Instr.ofOp op m dlen.toNat din)).err = firstFailedCheck (encodeOp op ++ encodeLen m) dlen := by
  cases op with
  | enc => rw [instrResult_ofOp_enc, err_encResult, firstFailedCheck_enc]
  | dec => rw [instrResult_ofOp_dec, err_decResult, firstFailedCheck_dec]

/-- ERR of an evaluation is the first failed check of its CMD and DLEN: the decoder makes checks 1 and 2, the operation
the others (R152). -/
theorem err_requestResult (r : Req) : (requestResult r).err = firstFailedCheck (Req.cmd r) (Req.dlen r) := by
  rcases decode_cases r with ⟨op, m, hop, hlen, hok⟩ | ⟨hop, herr⟩ | ⟨hop, hlen, herr⟩
  · rw [requestResult_of_decode_ok hok, err_instrResult_ofOp, encodeOp_append_encodeLen hop hlen]
  · rw [Req.op_eq_cmd] at hop
    rw [requestResult_of_decode_error herr, firstFailedCheck_of_illegalOp (le_toNat_of_decodeOp_eq_none _ hop)]
    rfl
  · rw [Req.op_eq_cmd] at hop
    rw [Req.len_eq_cmd] at hlen
    rw [requestResult_of_decode_error herr,
      firstFailedCheck_of_unsupportedLen (toNat_of_decodeLen_eq_none _ hop hlen)]
    rfl

/-- ERR of a step, by the ports of the state. -/
theorem err_requestResult_request (s : State) : (requestResult s.request).err = firstFailedCheck s.cmd s.dlen := by
  rw [err_requestResult, State.request, Req.cmd_reqOfPorts, Req.dlen_reqOfPorts]

/-- Settles O6: the result a step completes with carries the first failed check on ERR. -/
theorem firstFailedCheckDecidesErr : Obligations.FirstFailedCheckDecidesErr :=
  fun s => ⟨_, step_eq_complete s, err_requestResult_request s⟩

/-- Settles O7: a failed check leaves only error outputs, and their ERR is that check. -/
theorem errorDrivesFixedOutputs : Obligations.ErrorDrivesFixedOutputs := by
  intro s h
  obtain ⟨e, he⟩ := requestResult_of_firstFailedCheck h
  have hres : requestResult s.request = errorOutputs e := he s.din
  rw [← err_requestResult_request, step_eq_complete, hres]
  rfl

end Sys2Proof.Machine
end

section
/-! When there are outputs to observe (70_reset_and_hazards.md R170, R172, R174): none at power-up or while the inputs
are driven, some after every completed evaluation. -/

namespace Sys2Proof.Machine

@[simp] theorem State.reset_out : State.reset.out = none := rfl

/-- A completed evaluation leaves its result to observe (R172). -/
theorem out_ne_none_of_step_eq_next {s t : State} (h : step s = .next t) : t.out ≠ none := by
  obtain rfl := eq_of_step_eq_next h
  exact Option.some_ne_none _

/-- Where nothing is observed, no illegal value is. -/
theorem State.portsLegal_of_out_eq_none {s : State} (h : s.out = none) : s.PortsLegal :=
  fun _ ho => absurd (h.symm.trans ho) (Option.some_ne_none _).symm

/-- Where nothing is observed, no evaluation stands to be repeated. -/
theorem State.settled_of_out_eq_none {s : State} (h : s.out = none) : s.Settled :=
  fun hout => absurd h hout

/-- Settles O1: power-up and a drive of the inputs leave no outputs, and a step drives its result. -/
theorem observationOnlyAfterEvaluation : Obligations.ObservationOnlyAfterEvaluation :=
  ⟨State.reset_out, fun s r => ⟨s.present_out r, s.present_request r⟩, fun _ _ => out_ne_none_of_step_eq_next⟩

/-- Settles O8: nothing is observed at power-up, and a state with nothing observed is legal and settled. -/
theorem portsLegalAtReset : Obligations.PortsLegalAtReset :=
  ⟨State.portsLegal_of_out_eq_none State.reset_out, State.settled_of_out_eq_none State.reset_out⟩

end Sys2Proof.Machine
end

section
/-! The request words listed with the worked programs (95_test_vectors.md §3): six are encodings, two carry a reserved
command. -/

namespace Sys2Proof

/-- A word that is the encoding of a well-formed instruction decodes to that instruction. -/
theorem decode_eq_ok_of_encode_eq {r : Req} {i : Instr} (henc : encode i = r) (hwf : i.wellFormed = true) :
    decode r = .ok i :=
  henc ▸ decodeInvertsEncode i hwf

/-- Settles O14: the words of P1 to P3 are the encodings of the instructions beside them, and the two of P4 are rejected
for their OP 10 (R51) and for their LEN 11 under ENC (R52). -/
theorem listedRequestWordsDecode : Obligations.ListedRequestWordsDecode := by
  refine ⟨?enc8, ?enc16, ?enc32, ?dec8, ?dec16, ?dec32, ?reservedOp, ?reservedLen⟩
  case reservedOp => exact decode_eq_illegalOp (by decide)
  case reservedLen => exact decode_eq_unsupportedLen (op := .enc) (by decide) (by decide)
  all_goals exact decode_eq_ok_of_encode_eq (by decide) (by decide)

end Sys2Proof
end
